-- ==== Sys2Proof/Word.lean ====
section
/-! DEFINITION. The value types of the interface (R4, R5, R82): bytes, the 32-bit and 64-bit fields
and packets, which are finite byte sequences (R80). -/

namespace Sys2Proof

/-- A byte (R5). -/
abbrev Byte := BitVec 8

/-- A `U32`: seed, payload length, hash value, status, derived index (R4, R82). -/
abbrev U32 := BitVec 32

/-- The bits of an `I64` field; its value is the two's complement one, `BitVec.toInt` (R82). -/
abbrev I64 := BitVec 64

/-- The bits of an `F64` field, an IEEE-754 binary64 pattern (R82). -/
abbrev F64 := BitVec 64

/-- A packet, or the payload of one: bytes in transmission order, offset 0 first (R5, R80). -/
abbrev Packet := List Byte

end Sys2Proof
end

