-- ==== Sys2Proof/Syntax.lean ====
section
/-! DEFINITION. The thirteen commands (R89), one constructor per row of spec/opcode_table.json, with
the operands of R83 in field order; LEN is the length of the DATA operand (R92). -/

namespace Sys2Proof

/-- A command of the CORE (R1, R89). -/
inductive Instr where
  /-- `FNV1A item` (R121). -/
  | fnv1a (item : Packet)
  /-- `MURMUR3 seed, item` (R123). -/
  | murmur3 (seed : U32) (item : Packet)
  /-- `INDICES hashCount, bitCount, seed, item` (R141). -/
  | indices (hashCount bitCount : I64) (seed : U32) (item : Packet)
  /-- `SETBIT index` (R152). -/
  | setbit (index : I64)
  /-- `GETBIT index` (R153). -/
  | getbit (index : I64)
  /-- `RDBITS` (R154). -/
  | rdbits
  /-- `SIZE n, tol` (R173). -/
  | size (n : I64) (tol : F64)
  /-- `NEWSZ n, tol, seed` (R186). -/
  | newsz (n : I64) (tol : F64) (seed : U32)
  /-- `NEWEX bitCount, hashCount, itemCount, tol, seed` (R187). -/
  | newex (bitCount hashCount itemCount : I64) (tol : F64) (seed : U32)
  /-- `LOAD bitCount, hashCount, itemCount, tol, seed, bytes` (R188). -/
  | load (bitCount hashCount itemCount : I64) (tol : F64) (seed : U32) (bytes : Packet)
  /-- `ADD item` (R189). -/
  | add (item : Packet)
  /-- `CONTAINS item` (R190). -/
  | contains (item : Packet)
  /-- `RDPAR` (R191). -/
  | rdpar
deriving DecidableEq, Repr

/-- The DATA operand of a command, empty for a command that has none (R83). -/
def Instr.payload : Instr → Packet
  | .fnv1a item => item
  | .murmur3 _ item => item
  | .indices _ _ _ item => item
  | .setbit _ => []
  | .getbit _ => []
  | .rdbits => []
  | .size _ _ => []
  | .newsz _ _ _ => []
  | .newex _ _ _ _ _ => []
  | .load _ _ _ _ _ bytes => bytes
  | .add item => item
  | .contains item => item
  | .rdpar => []

/-- The constructions (R185). -/
def Instr.isConstruction : Instr → Bool
  | .newsz _ _ _ => true
  | .newex _ _ _ _ _ => true
  | .load _ _ _ _ _ _ => true
  | .fnv1a _ => false
  | .murmur3 _ _ => false
  | .indices _ _ _ _ => false
  | .setbit _ => false
  | .getbit _ => false
  | .rdbits => false
  | .size _ _ => false
  | .add _ => false
  | .contains _ => false
  | .rdpar => false

/-- The commands that need a filter and answer NoFilter without one (R185, R233). -/
def Instr.needsFilter : Instr → Bool
  | .setbit _ => true
  | .getbit _ => true
  | .rdbits => true
  | .add _ => true
  | .contains _ => true
  | .rdpar => true
  | .fnv1a _ => false
  | .murmur3 _ _ => false
  | .indices _ _ _ _ => false
  | .size _ _ => false
  | .newsz _ _ _ => false
  | .newex _ _ _ _ _ => false
  | .load _ _ _ _ _ _ => false

end Sys2Proof
end

