-- ==== Sys2Proof/WellFormed.lean ====
section
/-! DEFINITION. What makes a command one the interface can carry. There is a single check: LEN is a
U32 and counts the payload, so a payload has at most 2^32 - 1 bytes (R9, R82, U10). Every value of
every other operand field is legal as an encoding (R85). -/

namespace Sys2Proof

/-- R9, R82: the payload's length fits LEN. -/
def Instr.wellFormed (i : Instr) : Bool :=
  decide (i.payload.length < 4294967296)

end Sys2Proof
end

