-- ==== Sys2Proof/Decode.lean ====
section
/-! DEFINITION. The command packets (30_encoding.md): little-endian fields, the nine formats, the
opcode map, the total decoder of R85, which rejects by name, and the encoder written from the same
tables. -/

namespace Sys2Proof

/-! ### Little-endian fields (R53, R82) -/

/-- The number a byte sequence stands for, its first byte least significant. -/
def leNat : Packet → Nat
  | [] => 0
  | b :: bs => b.toNat + 256 * leNat bs

/-- The `k` bytes of a number, least significant first; what does not fit is cut off. -/
def leBytes : Nat → Nat → Packet
  | 0, _ => []
  | k + 1, v => BitVec.ofNat 8 v :: leBytes k (v / 256)

/-- The U32 field at a byte offset. -/
def u32At (p : Packet) (off : Nat) : U32 := BitVec.ofNat 32 (leNat ((p.drop off).take 4))

/-- The I64 field at a byte offset. -/
def i64At (p : Packet) (off : Nat) : I64 := BitVec.ofNat 64 (leNat ((p.drop off).take 8))

/-- The F64 field at a byte offset. -/
def f64At (p : Packet) (off : Nat) : F64 := BitVec.ofNat 64 (leNat ((p.drop off).take 8))

/-- The bytes of a U32 field. -/
def u32Bytes (v : U32) : Packet := leBytes 4 v.toNat

/-- The bytes of an I64 field. -/
def i64Bytes (v : I64) : Packet := leBytes 8 v.toNat

/-- The bytes of an F64 field. -/
def f64Bytes (v : F64) : Packet := leBytes 8 v.toNat

/-- The LEN field and the DATA field of a payload (R82, R84). -/
def dataBytes (d : Packet) : Packet := leBytes 4 d.length ++ d

/-! ### Formats and opcodes (R83, R89) -/

/-- The nine command formats (R83). -/
inductive Format where
  | z | b | sb | ib | x | s | n | e | l
deriving DecidableEq, Repr

/-- The length of a format's fixed part: HW, the operand fields and LEN (R83, R85). -/
def Format.fixed : Format → Nat
  | .z => 4
  | .b => 8
  | .sb => 12
  | .ib => 28
  | .x => 12
  | .s => 20
  | .n => 24
  | .e => 40
  | .l => 44

/-- Whether a format ends in LEN and DATA (R83). -/
def Format.hasData : Format → Bool
  | .b | .sb | .ib | .l => true
  | .z | .x | .s | .n | .e => false

/-- The opcode map (R89): the format of an assigned opcode and how its operands are read at the
offsets of R83; `none` for a reserved opcode (R90). -/
def opcodeRow (opc : Nat) : Option (Format × (Packet → Instr)) :=
  match opc with
  | 0x10 => some (.b, fun p => .fnv1a (p.drop 8))
  | 0x11 => some (.sb, fun p => .murmur3 (u32At p 4) (p.drop 12))
  | 0x20 => some (.ib, fun p => .indices (i64At p 4) (i64At p 12) (u32At p 20) (p.drop 28))
  | 0x30 => some (.x, fun p => .setbit (i64At p 4))
  | 0x31 => some (.x, fun p => .getbit (i64At p 4))
  | 0x32 => some (.z, fun _ => .rdbits)
  | 0x40 => some (.s, fun p => .size (i64At p 4) (f64At p 12))
  | 0x50 => some (.n, fun p => .newsz (i64At p 4) (f64At p 12) (u32At p 20))
  | 0x51 => some (.e, fun p =>
      .newex (i64At p 4) (i64At p 12) (i64At p 20) (f64At p 28) (u32At p 36))
  | 0x52 => some (.l, fun p =>
      .load (i64At p 4) (i64At p 12) (i64At p 20) (f64At p 28) (u32At p 36) (p.drop 44))
  | 0x53 => some (.b, fun p => .add (p.drop 8))
  | 0x54 => some (.b, fun p => .contains (p.drop 8))
  | 0x55 => some (.z, fun _ => .rdpar)
  | _ => none

/-! ### The decoder (R85) -/

/-- Why a packet is illegal (R85, R90). The CORE answers all of them with the one status
IllegalCommand (R236); the names are the model's. -/
inductive DecodeError where
  /-- Fewer than 4 bytes: no header word. -/
  | noHeader
  /-- `HW[31:8]` is not zero. -/
  | reservedBits
  /-- The opcode is not in the table of R89. -/
  | reservedOpcode
  /-- Shorter than the format's fixed part. -/
  | tooShort
  /-- The length is not the fixed length plus LEN. -/
  | wrongLength
deriving DecidableEq, Repr

/-- The packet length a format asks for, LEN being the U32 in the last 4 bytes of the fixed part
(R85). -/
def packetLength (f : Format) (p : Packet) : Nat :=
  if f.hasData then f.fixed + (u32At p (f.fixed - 4)).toNat else f.fixed

/-- The decision procedure of R85, total on byte sequences. -/
def decode (p : Packet) : Except DecodeError Instr :=
  if p.length < 4 then .error .noHeader
  else if (u32At p 0).extractLsb' 8 24 ≠ 0 then .error .reservedBits
  else
    match opcodeRow ((u32At p 0).extractLsb' 0 8).toNat with
    | none => .error .reservedOpcode
    | some (f, read) =>
      if p.length < f.fixed then .error .tooShort
      else if p.length ≠ packetLength f p then .error .wrongLength
      else .ok (read p)

/-! ### The encoder -/

/-- The opcode of a command (R89). -/
def Instr.opcode : Instr → Byte
  | .fnv1a _ => 0x10
  | .murmur3 _ _ => 0x11
  | .indices _ _ _ _ => 0x20
  | .setbit _ => 0x30
  | .getbit _ => 0x31
  | .rdbits => 0x32
  | .size _ _ => 0x40
  | .newsz _ _ _ => 0x50
  | .newex _ _ _ _ _ => 0x51
  | .load _ _ _ _ _ _ => 0x52
  | .add _ => 0x53
  | .contains _ => 0x54
  | .rdpar => 0x55

/-- The operand fields of a command, in the order of R83. -/
def Instr.fields : Instr → Packet
  | .fnv1a item => dataBytes item
  | .murmur3 seed item => u32Bytes seed ++ dataBytes item
  | .indices hashCount bitCount seed item =>
      i64Bytes hashCount ++ (i64Bytes bitCount ++ (u32Bytes seed ++ dataBytes item))
  | .setbit index => i64Bytes index
  | .getbit index => i64Bytes index
  | .rdbits => []
  | .size n tol => i64Bytes n ++ f64Bytes tol
  | .newsz n tol seed => i64Bytes n ++ (f64Bytes tol ++ u32Bytes seed)
  | .newex bitCount hashCount itemCount tol seed =>
      i64Bytes bitCount ++ (i64Bytes hashCount ++ (i64Bytes itemCount ++
        (f64Bytes tol ++ u32Bytes seed)))
  | .load bitCount hashCount itemCount tol seed bytes =>
      i64Bytes bitCount ++ (i64Bytes hashCount ++ (i64Bytes itemCount ++
        (f64Bytes tol ++ (u32Bytes seed ++ dataBytes bytes))))
  | .add item => dataBytes item
  | .contains item => dataBytes item
  | .rdpar => []

/-- The command packet of a command: the header word `opcode, 0, 0, 0` (R81), then its fields. -/
def encode (i : Instr) : Packet := i.opcode :: 0 :: 0 :: 0 :: i.fields

/-! ### The opcode table's numbering -/

/-- The packet of an instruction whose bits are `w`, bit 0 the least significant bit of byte 0,
`nbits` of them given: the given bytes, and zeros up to the length its format asks for (log entry
13). A word with no assigned opcode keeps the bytes it has. -/
def tablePacket (nbits w : Nat) : Packet :=
  let given := (nbits + 7) / 8
  let w := w % 2 ^ nbits
  match opcodeRow (w % 256) with
  | none => leBytes given w
  | some (f, _) =>
    let fixed := leBytes (max given f.fixed) w
    leBytes (max given (packetLength f fixed)) w

/-- What the decoder reads from a table word; `none` where it rejects. -/
def decodeTableWord (nbits w : Nat) : Option Instr :=
  (decode (tablePacket nbits w)).toOption

end Sys2Proof
end

