-- ==== Sys2Proof/Machine/Flags.lean ====
section
/-! DEFINITION. The CORE has no flags and no condition codes (R31): the outcome of a command is the
status of its response. The status codes (R87), their priority (R237) and the response packets that
carry them (R86). -/

namespace Sys2Proof.Machine

/-- The statuses of R87. -/
inductive Status where
  | ok
  | invalidParameter
  | noFilter
  | capacityExceeded
  | unrepresentable
  | illegalCommand
deriving DecidableEq, Repr

/-- The code of a status (R87). -/
def statusCode : Status → U32
  | .ok => 0
  | .invalidParameter => 1
  | .noFilter => 2
  | .capacityExceeded => 3
  | .unrepresentable => 4
  | .illegalCommand => 5

/-- The place of a failure in the order of R237, 1 reported before 2 and so on; OK is last. -/
def statusPriority : Status → Nat
  | .illegalCommand => 1
  | .noFilter => 2
  | .invalidParameter => 3
  | .unrepresentable => 4
  | .capacityExceeded => 5
  | .ok => 6

/-- The response to a failed command: the status word and nothing else (R86, R238). -/
def failurePacket (st : Status) : Packet := u32Bytes (statusCode st)

/-- The response to a command that did what its rule says: status OK, then the result fields
(R86). -/
def okPacket (results : Packet) : Packet := u32Bytes (statusCode .ok) ++ results

/-- The STATUS word of a response packet (R86). -/
def statusWord (r : Packet) : U32 := u32At r 0

/-- What R86 and R87 promise of every response packet: it has a status word, the code is one of the
six, and a packet whose status is not OK is exactly 4 bytes long. -/
def legalResponse (r : Packet) : Bool :=
  decide (4 ≤ r.length) && decide ((statusWord r).toNat ≤ 5) &&
    (decide (statusWord r = statusCode .ok) || decide (r.length = 4))

end Sys2Proof.Machine
end

