-- ==== Sys2Proof/Machine/Operands.lean ====
section
/-! DEFINITION. The operand values: counts (R4, R82), the binary64 tolerance (R82, R192), and the
result fields of a response (R88). The CORE has no addressing modes; an operand is a packet field
(R29, R84). -/

namespace Sys2Proof.Machine

/-! ### Counts -/

/-- The value of an I64 operand: two's complement (R7, R82). -/
abbrev count (v : I64) : Int := v.toInt

/-- The value of a count operand that its command has tested to be not negative. -/
abbrev natCount (v : I64) : Nat := v.toInt.toNat

/-- The I64 result field of a count (R88). -/
def countBytes (c : Nat) : Packet := leBytes 8 c

/-! ### The tolerance -/

/-- Bit 63 of a binary64 pattern: the sign (R82). -/
def f64Sign (t : F64) : Bool := t.getLsbD 63

/-- Bits 62:52: the biased exponent (R82). -/
def f64Exponent (t : F64) : Nat := (t.extractLsb' 52 11).toNat

/-- Bits 51:0: the fraction (R82). -/
def f64Fraction (t : F64) : Nat := (t.extractLsb' 0 52).toNat

/-- Neither an infinity nor a NaN: the exponent is not 2047 (R82). -/
def f64Finite (t : F64) : Bool := decide (f64Exponent t ≠ 2047)

/-- The integer significand of a finite pattern: the fraction, with the leading 1 unless the
exponent is 0 (zero or subnormal; R82). -/
def f64Significand (t : F64) : Nat :=
  if f64Exponent t = 0 then f64Fraction t else 2 ^ 52 + f64Fraction t

/-- The power of two that goes with the significand: a finite pattern has the magnitude
`f64Significand t * 2 ^ f64Scale t / 2 ^ 1074` (R82, exponent bias 1023). -/
def f64Scale (t : F64) : Nat := f64Exponent t - 1

/-- `real(t)`: the exact value of a finite pattern (R7), here a rational number. It is what the
tests and sizing formulas of the rules are about; the machine's own computations use the integer
significand and scale. -/
def f64Real (t : F64) : ℚ :=
  (if f64Sign t then -1 else 1) *
    ((f64Significand t : ℚ) * 2 ^ f64Scale t / 2 ^ 1074)

/-- The tolerance test of R192: neither a NaN nor an infinity, and `0 < real(tol) < 1`, both strict.
On the pattern: finite; positive, so sign 0 and significand not 0; below 1, so exponent below the
bias. -/
def toleranceOk (t : F64) : Bool :=
  f64Finite t && !f64Sign t && decide (0 < f64Significand t) && decide (f64Exponent t < 1023)

/-! ### Result fields -/

/-- A one-bit result as a U32 (R88: BIT, MEMBER, MISMATCH). -/
def flagBytes (b : Bool) : Packet := u32Bytes (if b then 1 else 0)

/-- The LEN or NBYTES result of a buffer length, zero-extended to a U32 (R88, R154, R191). -/
def lengthBytes (n : Nat) : Packet := leBytes 4 n

/-- The U32 fields of a sequence of derived indices, index 0 first (R88). -/
def indexBytes (is : List Nat) : Packet := is.flatMap (leBytes 4)

end Sys2Proof.Machine
end

