-- ==== Sys2Proof/Config.lean ====
section
/-! DEFINITION. What an implementation fixes (R4): the two open parameters MAXBYTES and NUMERICS as
plain data, and the free values behind NUMERICS, which have no body. -/

namespace Sys2Proof

/-- The open parameter NUMERICS (R4, R174, D28): how the SizingPolicy evaluates its formulas.
DESIGN CHOICE (log entry 5): two readings, chosen by plain data. -/
inductive Numerics where
  /-- Exact real arithmetic, the spec's default reading and its normative value (R174). -/
  | exact
  /-- Some other evaluation that R174 admits: a function of `(n, p)` alone, integers at least 1,
  monotone in `p`; which one is left to the free values below. -/
  | substitute
deriving DecidableEq, Repr

/-- The parameters of one CORE. No command writes them. -/
structure Config where
  /-- MAXBYTES (R4, D14): the capacity of the bit memory in bytes. -/
  maxBytes : Nat
  /-- NUMERICS (R4, R174). -/
  numerics : Numerics
deriving DecidableEq, Repr

/-- R4: MAXBYTES is "a positive integer at most 2^32 - 1". -/
def Config.wf (c : Config) : Bool :=
  decide (1 ≤ c.maxBytes) && decide (c.maxBytes ≤ 4294967295)

/-- FREE VALUE (log entry 5). Under `Numerics.substitute`: by how much `SizeBits(n, p)` grows from
one tolerance to the next smaller one (the second argument counts tolerances downward from 1). -/
opaque Config.substituteGrowth : Nat → Nat → Nat

/-- FREE VALUE (log entry 5). Under `Numerics.substitute`: what `SizeHashes(m, n)` is above 1. -/
opaque Config.substituteHash : Nat → Nat → Nat

end Sys2Proof
end

