-- ==== Sys2Proof/Machine/State.lean ====
section
/-! DEFINITION. The architectural state (R20) and the two channels and the reset input through which
the host reaches the CORE (R80), as plain data; the state after reset (R35, R260). -/

namespace Sys2Proof.Machine

/-- The seven elements a filter context holds while VALID = 1 (R20). -/
structure FilterContext where
  /-- BITCOUNT (R21): the modulus of index derivation. -/
  bitCount : Nat
  /-- HASHCOUNT (R22): how many indices are derived for an item. -/
  hashCount : Nat
  /-- SEED (R23). -/
  seed : U32
  /-- TOL (R24): the 64 bits the construction carried, for reporting only. -/
  tol : F64
  /-- ITEMCOUNT (R25): for reporting only. -/
  itemCount : Nat
  /-- NBYTES (R26): the length of BITS in bytes. -/
  nbytes : Nat
  /-- BITS (R27): the bytes of the buffer that are not 0x00, by address; an address below NBYTES
  that is not listed reads 0x00 (log entry 8). -/
  bits : List Host.Cell
deriving DecidableEq, Repr

/-- The state of the CORE. -/
structure State where
  /-- The implementation's parameters (R4); no step writes them (log entries 4 and 5). -/
  config : Config
  /-- The reset input (R80, R260): asserted by the host, released again by the step that resets. -/
  resetIn : Bool
  /-- The command channel (R80): packets submitted and not yet taken, oldest first. -/
  commands : List Packet
  /-- The response channel (R80): packets emitted and not yet taken by the host, oldest first. -/
  responses : List Packet
  /-- The filter context (R20). `none` is VALID = 0, where the other seven elements hold no value
  (R28: "A model must not give them a value such as zero"; log entry 1). -/
  context : Option FilterContext
deriving DecidableEq, Repr

/-- VALID (R28): 1 when the context holds a filter. -/
def State.valid (s : State) : Bool := s.context.isSome

/-- Why the CORE stops with a fault: never. R238, R239 and R267 give every command, the failing and
the malformed ones included, a response and a next command, so this type has no constructor. Safe:
nothing is hidden behind a fault. -/
inductive Fault where
deriving DecidableEq, Repr

/-- Why a command has no meaning. -/
inductive Refusal where
  /-- Raised by an arm of `exec` for a command of the table that has no meaning yet; no arm is left
  that raises it. Safe: it stops where the hardware goes on. -/
  | notModelled (mnemonic : String)
deriving DecidableEq, Repr

/-- The state after reset (R35, R260): VALID = 0 and nothing held in the context, both channels
empty, the reset input released. DESIGN CHOICE (log entries 4 and 5): MAXBYTES the largest value
R4 allows, NUMERICS the default reading. -/
def State.reset : State where
  config := { maxBytes := 4294967295, numerics := .exact }
  resetIn := false
  commands := []
  responses := []
  context := none

end Sys2Proof.Machine
end

