-- ==== Sys2Proof/Machine/Ops.lean ====
section
/-! DEFINITION. The named operations: the bit memory in its canonical form, its byte and bit accesses
(20_memory.md), answering a command and failing one (R86, R238), and the host's moves (R80). -/

namespace Sys2Proof.Machine

/-! ### The memory as canonical data

A memory is a list of (address, byte) pairs, addresses strictly rising, no byte 0x00; an address
that is not listed reads 0x00, which is what a construction writes to every byte it does not get
from the host (R186, R187; log entry 8). -/

/-- The byte at an address. -/
def Memory.read : List Host.Cell → Nat → Byte
  | [], _ => 0#8
  | (k, v) :: rest, a => if k = a then v else Memory.read rest a

/-- Put a byte in front of a memory whose addresses are larger, keeping the canonical form. -/
def Memory.cons (a : Nat) (v : Byte) (m : List Host.Cell) : List Host.Cell :=
  if v = 0#8 then m else (a, v) :: m

/-- Replace the byte at an address. -/
def Memory.write : List Host.Cell → Nat → Byte → List Host.Cell
  | [], a, v => Memory.cons a v []
  | (k, b) :: rest, a, v =>
    if a < k then Memory.cons a v ((k, b) :: rest)
    else if a = k then Memory.cons a v rest
    else (k, b) :: Memory.write rest a v

/-- Every listed address is at least `lo`, addresses strictly rise, no listed byte is 0x00. -/
def Memory.wfFrom : Nat → List Host.Cell → Bool
  | _, [] => true
  | lo, (k, v) :: rest => decide (lo ≤ k) && decide (v ≠ 0#8) && Memory.wfFrom (k + 1) rest

/-- The canonical form. -/
def Memory.wf (m : List Host.Cell) : Bool := Memory.wfFrom 0 m

/-- Every listed address is below a bound. -/
def Memory.below (n : Nat) (m : List Host.Cell) : Bool := m.all fun c => decide (c.1 < n)

/-- The memory that holds given bytes from an address on, in ascending address (R61, R188). -/
def Memory.ofBytes : Nat → Packet → List Host.Cell
  | _, [] => []
  | a, b :: bs => Memory.cons a b (Memory.ofBytes (a + 1) bs)

/-- The first `n` bytes of a memory, in ascending address (R61, R154). -/
def Memory.toBytes (m : List Host.Cell) (n : Nat) : Packet := (List.range n).map (Memory.read m)

/-! ### BITS (R50, R51, R57) -/

/-- `MemRead(a, 1)` (R7, R50). Every use has tested `a < NBYTES`. -/
def memRead (f : FilterContext) (a : Nat) : Byte := Memory.read f.bits a

/-- `MemWrite(a, 1, v)` (R7, R50). Every use has tested `a < NBYTES`. -/
def memWrite (f : FilterContext) (a : Nat) (v : Byte) : FilterContext :=
  { f with bits := Memory.write f.bits a v }

/-- A bit index is in range when `i >= 0` and `i div 8 < NBYTES` (R57): the bound of the byte
buffer, not BITCOUNT. -/
def inRange (f : FilterContext) (i : Int) : Bool := decide (0 ≤ i) && decide (i.toNat / 8 < f.nbytes)

/-- The address of the byte that holds bit index `i` (R51). -/
def byteOf (i : Int) : Nat := i.toNat / 8

/-- The mask of bit index `i` in its byte, bit 0 the least significant (R51). -/
def maskOf (i : Int) : Byte := 1#8 <<< (i.toNat % 8)

/-- `SetBit(i)` (R150): out of range it does nothing. -/
def setBit (f : FilterContext) (i : Int) : FilterContext :=
  if inRange f i then memWrite f (byteOf i) (memRead f (byteOf i) ||| maskOf i) else f

/-- `IsBitSet(i)` (R151): out of range it is false. -/
def isBitSet (f : FilterContext) (i : Int) : Bool :=
  if inRange f i then (memRead f (byteOf i)).getLsbD (i.toNat % 8) else false

/-- The bytes of BITS, ascending (R154). -/
def bufferBytes (f : FilterContext) : Packet := Memory.toBytes f.bits f.nbytes

/-! ### The end of a command -/

/-- Emit a response packet (R80). -/
def emit (r : Packet) (s : State) : State := { s with responses := s.responses ++ [r] }

/-- `respond OK, results` (R7, R86). -/
def respond (results : Packet) (s : State) : Host.Outcome State Fault Refusal :=
  .next (emit (okPacket results) s)

/-- `raise <Status>` (R7, R238): the shared operation of every failing command. The response is the
status word alone and no state element is written; there is no saved state, no handler and no
return (R230, R239). -/
def raise (st : Status) (s : State) : Host.Outcome State Fault Refusal :=
  .next (emit (failurePacket st) s)

/-- Hold a filter in the context: VALID becomes 1 and all other elements are replaced at once
(R185). -/
def hold (f : FilterContext) (s : State) : State := { s with context := some f }

/-! ### Taking a command (R80, R85, R236) -/

/-- The packet the next step takes: the oldest on the command channel. -/
def State.nextPacket (s : State) : Option Packet := s.commands.head?

/-- The state once the oldest command packet is off the channel. -/
def State.popCommand (s : State) : State := { s with commands := s.commands.tail }

/-- Between commands the CORE is idle and holds its state (R242). -/
def idle (s : State) : Host.Outcome State Fault Refusal := .next s

/-- A packet that R85 rejects is answered IllegalCommand whatever the reason (R90, R236). -/
def rejectPacket (_reason : DecodeError) (s : State) : Host.Outcome State Fault Refusal :=
  raise .illegalCommand s

/-- A packet placed where the next step takes it: in front of the command channel, the reset input
released (log entry 12). -/
def State.place (s : State) (p : Packet) : State :=
  { s with resetIn := false, commands := p :: s.commands }

/-! ### Reset and the host's moves -/

/-- The state when reset is released (R260): VALID = 0, channels empty, whatever they held. The
parameters of the implementation stay. -/
def resetState (s : State) : State := { State.reset with config := s.config }

/-- A step that finds reset asserted: the machine is reset and the input is released again (log
entry 3). -/
def takeReset (s : State) : Host.Outcome State Fault Refusal := .next (resetState s)

/-- The host submits a command packet (R80). -/
def State.submit (s : State) (p : Packet) : State := { s with commands := s.commands ++ [p] }

/-- The host takes the oldest response packet, if there is one (R80). -/
def State.takeResponse (s : State) : State := { s with responses := s.responses.tail }

/-- The host asserts the reset input (R80, R260). -/
def State.assertReset (s : State) : State := { s with resetIn := true }

end Sys2Proof.Machine
end

