-- ==== Sys2Proof/Machine/BitStore.lean ====
section
/-! DEFINITION. The BitStore's commands (42_bit_store.md): SETBIT, GETBIT, RDBITS. The functions
`SetBit` and `IsBitSet` are `setBit` and `isBitSet` of Machine/Ops.lean. -/

namespace Sys2Proof.Machine

/-- SETBIT (R152): OK also when the index is out of range or negative (R232). -/
def execSetbit (index : I64) (s : State) : Host.Outcome State Fault Refusal :=
  match s.context with
  | none => raise .noFilter s
  | some f => respond [] (hold (setBit f (count index)) s)

/-- GETBIT (R153). -/
def execGetbit (index : I64) (s : State) : Host.Outcome State Fault Refusal :=
  match s.context with
  | none => raise .noFilter s
  | some f => respond (flagBytes (isBitSet f (count index))) s

/-- RDBITS (R154): NBYTES, then the bytes of BITS verbatim. -/
def execRdbits (s : State) : Host.Outcome State Fault Refusal :=
  match s.context with
  | none => raise .noFilter s
  | some f => respond (lengthBytes f.nbytes ++ bufferBytes f) s

end Sys2Proof.Machine
end

