-- ==== Sys2Proof/Machine/HashEngine.lean ====
section
/-! DEFINITION. The HashEngine (40_hash_engine.md): the function the source names `fnv1a`,
MurmurHash3 x86_32, and the commands FNV1A and MURMUR3. All arithmetic wraps modulo 2^32 (R6). -/

namespace Sys2Proof.Machine

/-- `rotl32(a, r)` for `0 < r < 32` (R6). -/
def rotl32 (a : U32) (r : Nat) : U32 := (a <<< r) ||| (a >>> (32 - r))

/-! ### The FNV hash (R120) -/

/-- One step: multiply by the prime, THEN exclusive-or the zero-extended byte in (R120; C1). -/
def fnvStep (hash : U32) (b : Byte) : U32 := (hash * 0x01000193#32) ^^^ b.setWidth 32

/-- `Fnv(b)`: the steps over the bytes in ascending offset, from the offset basis. -/
def fnv (b : Packet) : U32 := b.foldl fnvStep 0x811c9dc5#32

/-! ### MurmurHash3, 32-bit (R122) -/

/-- The three operations on a chunk: multiply by c1, rotate left 15, multiply by c2. -/
def murmurMixK (k : U32) : U32 := rotl32 (k * 0xcc9e2d51#32) 15 * 0x1b873593#32

/-- What a whole chunk does to the hash: exclusive or, rotate left 13, times 5 plus constant. -/
def murmurMixH (h k : U32) : U32 := rotl32 (h ^^^ murmurMixK k) 13 * 5#32 + 0xe6546b64#32

/-- The 32-bit word of up to four bytes, lowest offset least significant (R52, R122). -/
def murmurWord (b : Packet) : U32 := BitVec.ofNat 32 (leNat b)

/-- The tail of 1 to 3 bytes: mixed and exclusive-ored in, with no rotate or multiply-add of the
hash; an empty tail changes nothing. -/
def murmurTail (h : U32) (t : Packet) : U32 :=
  if t = [] then h else h ^^^ murmurMixK (murmurWord t)

/-- The whole 4-byte chunks in ascending order, then the tail. -/
def murmurBody (h : U32) : Packet → U32
  | b0 :: b1 :: b2 :: b3 :: rest => murmurBody (murmurMixH h (murmurWord [b0, b1, b2, b3])) rest
  | t => murmurTail h t

/-- The finaliser: the avalanche mix. -/
def murmurFinal (h : U32) : U32 :=
  let h := h ^^^ (h >>> 16)
  let h := h * 0x85ebca6b#32
  let h := h ^^^ (h >>> 13)
  let h := h * 0xc2b2ae35#32
  h ^^^ (h >>> 16)

/-- `Murmur(b, seed)`: the hash starts as the seed, the byte length modulo 2^32 is folded in before
the finaliser. -/
def murmur (b : Packet) (seed : U32) : U32 :=
  murmurFinal (murmurBody seed b ^^^ BitVec.ofNat 32 b.length)

/-! ### The commands -/

/-- FNV1A (R121). -/
def execFnv1a (item : Packet) (s : State) : Host.Outcome State Fault Refusal :=
  respond (u32Bytes (fnv item)) s

/-- MURMUR3 (R123): the seed is the operand, not the SEED register. -/
def execMurmur3 (seed : U32) (item : Packet) (s : State) : Host.Outcome State Fault Refusal :=
  respond (u32Bytes (murmur item seed)) s

end Sys2Proof.Machine
end

