-- ==== Sys2Proof/Machine/IndexDeriver.lean ====
section
/-! DEFINITION. The IndexDeriver (41_index_deriver.md): double hashing modulo 2^32, then modulo the
bit count; the command INDICES. -/

namespace Sys2Proof.Machine

/-- `index_i` (R140): `h1 + i * h2` modulo 2^32 first, and only then modulo `bitCount`. -/
def indexAt (h1 h2 : U32) (bitCount i : Nat) : Nat := (h1 + BitVec.ofNat 32 i * h2).toNat % bitCount

/-- `Indices(item, hashCount, bitCount, seed)` (R140): `hashCount` indices, `index_0` first, repeats
kept (R143). The rule defines it for `bitCount >= 1`; every caller has tested that. -/
def indices (item : Packet) (hashCount bitCount : Nat) (seed : U32) : List Nat :=
  (List.range hashCount).map (indexAt (fnv item) (murmur item seed) bitCount)

/-- The indices of an item in a filter (R189, R190). -/
def filterIndices (f : FilterContext) (item : Packet) : List Nat :=
  indices item f.hashCount f.bitCount f.seed

/-- INDICES (R141): the operands are its own, not the registers of the same name. -/
def execIndices (hashCount bitCount : I64) (seed : U32) (item : Packet) (s : State) :
    Host.Outcome State Fault Refusal :=
  if count bitCount ≤ 0 then raise .invalidParameter s
  else if count hashCount < 0 then raise .invalidParameter s
  else respond (indexBytes (indices item (natCount hashCount) (natCount bitCount) seed)) s

end Sys2Proof.Machine
end

