-- ==== Sys2Proof/Machine/SizingPolicy.lean ====
section
/-! DEFINITION. The SizingPolicy (43_sizing_policy.md): `SizeBits` and `SizeHashes` and the command
SIZE. The normative value is the exact real one (R174). It is computed here from integer bounds of
the logarithms that are certified to be right: Laws/Log.lean and Laws/Sizing.lean prove them, so where
the lower and the upper bound give the same ceiling, that is the exact value, and where they do not,
the formula itself stands (log entries 6 and 7). -/

namespace Sys2Proof.Machine

/-! ### Bounds of logarithms

A real `x` is bounded by integers `X` and `X + logSlack` with `X <= x * 2^320 <= X + logSlack`. -/

/-- The number of terms summed. -/
def logTerms : Nat := 112

/-- The number of fraction bits. -/
def logBits : Nat := 320

/-- `k` terms of `2 * (z + z^3/3 + z^5/5 + ...)` for `z = u/v`, each rounded down to `logBits`
fraction bits. The whole series is `ln ((v + u) / (v - u))`. -/
def logSum (u v : Nat) : Nat → Nat
  | 0 => 0
  | k + 1 => logSum u v k + 2 ^ (logBits + 1) * u ^ (2 * k + 1) / ((2 * k + 1) * v ^ (2 * k + 1))

/-- The lower bound of `ln ((v + u) / (v - u))`. -/
def logLow (u v : Nat) : Nat := logSum u v logTerms

/-- How far the upper bound lies above the lower one: one unit for each rounded term, one for the
rest of the series (at most one unit for `u/v <= 1/3`). -/
def logSlack : Nat := logTerms + 1

/-- The lower bound of `ln 2`, with `z = 1/3`. -/
def ln2Low : Nat := logLow 1 3

/-- The upper bound of `ln 2`. -/
def ln2High : Nat := ln2Low + logSlack

/-- `ceil(a / b)` for naturals, `b > 0`. -/
def ceilDiv (a b : Nat) : Nat := (a + b - 1) / b

/-! ### A tolerance as a power of two and a factor

A tolerance that passes R192 is `f * 2^-e` with `1 <= f < 2` and `e >= 1`. -/

/-- The position of the highest bit of the significand. -/
def tolTop (t : F64) : Nat := Nat.log2 (f64Significand t)

/-- `e`. -/
def tolExponent (t : F64) : Nat := 1074 - f64Scale t - tolTop t

/-- The lower bound of `ln f`, with `z = (f - 1) / (f + 1)`. -/
def tolLogLow (t : F64) : Nat :=
  logLow (f64Significand t - 2 ^ tolTop t) (f64Significand t + 2 ^ tolTop t)

/-- The lower bound of `-ln p = e * ln 2 - ln f`. -/
def negLogLow (t : F64) : Nat := tolExponent t * ln2Low - (tolLogLow t + logSlack)

/-- The upper bound of `-ln p`. -/
def negLogHigh (t : F64) : Nat := tolExponent t * ln2High - tolLogLow t

/-! ### Exact evaluation (R170, R171, R172) -/

/-- `max(1, ceil(...))` at the lower bound of `-n * ln(p) / (ln 2)^2`. -/
def sizeBitsLow (n : Nat) (t : F64) : Nat :=
  max 1 (ceilDiv (n * negLogLow t * 2 ^ logBits) (ln2High * ln2High))

/-- `max(1, ceil(...))` at the upper bound of `-n * ln(p) / (ln 2)^2`. -/
def sizeBitsHigh (n : Nat) (t : F64) : Nat :=
  max 1 (ceilDiv (n * negLogHigh t * 2 ^ logBits) (ln2Low * ln2Low))

/-- The argument of the `ceil` of R170, `-n * ln(p) / (ln 2)^2` over the reals, for `p = real(t)`. -/
noncomputable def sizeArg (n : Nat) (t : F64) : ℝ :=
  -n * Real.log ((f64Real t : ℚ) : ℝ) / Real.log 2 ^ 2

/-- The value of R170 over the reals. Its TYPE is the whole definition: the one number it admits is
`max(1, ceil(...))`. No finite precision decides an argument that is an integer, so the body has no
end to reach, and as a value it is what the type says (log entry 6). -/
def realBits (n : Nat) (t : F64) : { m : Nat // m = max 1 ⌈sizeArg n t⌉₊ } := realBits n t
partial_fixpoint

/-- `SizeBits(n, p)` (R170) for `p = real(t)`: where the two bounds agree, the integer they agree on;
where they do not, the real ceiling itself. Both are the exact value (log entry 6). -/
def exactBits (n : Nat) (t : F64) : Nat :=
  if sizeBitsLow n t = sizeBitsHigh n t then sizeBitsHigh n t else (realBits n t).val

/-- `SizeHashes(m, n)` (R171), at the upper bound of `ln 2`. For `m, n < 2^63` no integer lies
between the bounds, so this is the exact value (log entry 7). -/
def exactHashes (m n : Nat) : Nat := max 1 (ceilDiv (m * ln2High) (n * 2 ^ logBits))

/-! ### Another evaluation (R174)

Any function of `(n, p)` with integers at least 1 that never falls when `p` falls (R175). The
patterns of the tolerances are ordered as their values are, so `0x3FF0000000000000 - t` counts the
tolerances downward from 1; summing a free growth along that count gives every such function. -/

/-- `SizeBits(n, p)` at the `d`-th tolerance below 1. -/
def substituteBits (n : Nat) : Nat → Nat
  | 0 => 1
  | d + 1 => substituteBits n d + Config.substituteGrowth n d

/-- `SizeHashes(m, n)`: at least 1, and at most `m` as R173 says of it (log entry 5). -/
def substituteHashes (m n : Nat) : Nat := 1 + Config.substituteHash m n % m

/-! ### The function pair of NUMERICS (R174) -/

/-- `SizeBits(n, p)`. -/
def sizeBits (c : Config) (n : Nat) (t : F64) : Nat :=
  match c.numerics with
  | .exact => exactBits n t
  | .substitute => substituteBits n (0x3FF0000000000000 - t.toNat)

/-- `SizeHashes(m, n)`. -/
def sizeHashes (c : Config) (m n : Nat) : Nat :=
  match c.numerics with
  | .exact => exactHashes m n
  | .substitute => substituteHashes m n

/-- Whether a bit count fits the I64 result field (R173, R235). -/
def representable (m : Nat) : Bool := decide (m ≤ 9223372036854775807)

/-- SIZE (R173). -/
def execSize (n : I64) (tol : F64) (s : State) : Host.Outcome State Fault Refusal :=
  if toleranceOk tol = false then raise .invalidParameter s
  else if count n ≤ 0 then raise .invalidParameter s
  else
    let m := sizeBits s.config (natCount n) tol
    if representable m = false then raise .unrepresentable s
    else respond (countBytes m ++ countBytes (sizeHashes s.config m (natCount n))) s

end Sys2Proof.Machine
end

