-- ==== Sys2Proof/Machine/FilterUnit.lean ====
section
/-! DEFINITION. The Filter (44_filter.md): the constructions NEWSZ, NEWEX and LOAD, then ADD, CONTAINS
and RDPAR. -/

namespace Sys2Proof.Machine

/-- `ceil(bitCount / 8)`, the buffer length of a fresh filter (R26). -/
def bufferLength (bitCount : Nat) : Nat := (bitCount + 7) / 8

/-- Whether a construction's buffer is larger than the bit memory (R234). -/
def exceedsCapacity (c : Config) (nbytes : Nat) : Bool := decide (c.maxBytes < nbytes)

/-! ### Constructions: every test comes before the first write (R185) -/

/-- NEWSZ (R186). -/
def execNewsz (n : I64) (tol : F64) (seed : U32) (s : State) : Host.Outcome State Fault Refusal :=
  if toleranceOk tol = false then raise .invalidParameter s
  else if count n ≤ 0 then raise .invalidParameter s
  else
    let m := sizeBits s.config (natCount n) tol
    if representable m = false then raise .unrepresentable s
    else
      let k := sizeHashes s.config m (natCount n)
      if exceedsCapacity s.config (bufferLength m) then raise .capacityExceeded s
      else
        respond (countBytes m ++ countBytes k)
          (hold { bitCount := m, hashCount := k, seed := seed, tol := tol, itemCount := natCount n,
                  nbytes := bufferLength m, bits := [] } s)

/-- The operand tests NEWEX and LOAD share (R187, R188, R192). -/
def explicitCountsOk (bitCount hashCount itemCount : I64) (tol : F64) : Bool :=
  toleranceOk tol && decide (0 < count bitCount) && decide (0 < count hashCount) &&
    decide (0 ≤ count itemCount)

/-- NEWEX (R187): the SizingPolicy is not consulted. -/
def execNewex (bitCount hashCount itemCount : I64) (tol : F64) (seed : U32) (s : State) :
    Host.Outcome State Fault Refusal :=
  if explicitCountsOk bitCount hashCount itemCount tol = false then raise .invalidParameter s
  else if exceedsCapacity s.config (bufferLength (natCount bitCount)) then
    raise .capacityExceeded s
  else
    respond []
      (hold { bitCount := natCount bitCount, hashCount := natCount hashCount, seed := seed,
              tol := tol, itemCount := natCount itemCount,
              nbytes := bufferLength (natCount bitCount), bits := [] } s)

/-- LOAD (R188): the bytes are taken verbatim and their number is not checked against BITCOUNT, only
reported as MISMATCH. The four tests after the empty-buffer test are the rule's own (log entry 11). -/
def execLoad (bitCount hashCount itemCount : I64) (tol : F64) (seed : U32) (bytes : Packet)
    (s : State) : Host.Outcome State Fault Refusal :=
  if bytes.length = 0 then raise .invalidParameter s
  else if explicitCountsOk bitCount hashCount itemCount tol = false then raise .invalidParameter s
  else if exceedsCapacity s.config bytes.length then raise .capacityExceeded s
  else
    respond (flagBytes (decide (bytes.length ≠ bufferLength (natCount bitCount))))
      (hold { bitCount := natCount bitCount, hashCount := natCount hashCount, seed := seed,
              tol := tol, itemCount := natCount itemCount, nbytes := bytes.length,
              bits := Memory.ofBytes 0 bytes } s)

/-! ### Add and contains -/

/-- Set each of a sequence of derived indices, in order (R189). -/
def setBits (f : FilterContext) (is : List Nat) : FilterContext := is.foldl (fun g i => setBit g (i : Int)) f

/-- ADD's effect on the filter (R189): BITS only; ITEMCOUNT is not incremented. -/
def addItem (f : FilterContext) (item : Packet) : FilterContext := setBits f (filterIndices f item)

/-- MEMBER (R190): the conjunction of the tests, stopping at the first unset bit. -/
def containsItem (f : FilterContext) (item : Packet) : Bool :=
  (filterIndices f item).all fun i => isBitSet f (i : Int)

/-- ADD (R189). -/
def execAdd (item : Packet) (s : State) : Host.Outcome State Fault Refusal :=
  match s.context with
  | none => raise .noFilter s
  | some f => respond [] (hold (addItem f item) s)

/-- CONTAINS (R190). -/
def execContains (item : Packet) (s : State) : Host.Outcome State Fault Refusal :=
  match s.context with
  | none => raise .noFilter s
  | some f => respond (flagBytes (containsItem f item)) s

/-! ### The accessor -/

/-- The parameter fields of RDPAR's response, in the order of R88. -/
def parameterBytes (f : FilterContext) : Packet :=
  countBytes f.bitCount ++ (countBytes f.hashCount ++ (countBytes f.itemCount ++
    (f64Bytes f.tol ++ (u32Bytes f.seed ++ lengthBytes f.nbytes))))

/-- RDPAR (R191). -/
def execRdpar (s : State) : Host.Outcome State Fault Refusal :=
  match s.context with
  | none => raise .noFilter s
  | some f => respond (parameterBytes f) s

end Sys2Proof.Machine
end

