-- ==== Sys2Proof/Machine/Dispatch.lean ====
section
/-! DEFINITION. One arm per command of the opcode table (R89). -/

namespace Sys2Proof.Machine

def exec (i : Instr) (s : State) : Host.Outcome State Fault Refusal :=
  match i with
  | .fnv1a item => Sys2Proof.Machine.execFnv1a item s
  | .murmur3 seed item => Sys2Proof.Machine.execMurmur3 seed item s
  | .indices hashCount bitCount seed item => Sys2Proof.Machine.execIndices hashCount bitCount seed item s
  | .setbit index => Sys2Proof.Machine.execSetbit index s
  | .getbit index => Sys2Proof.Machine.execGetbit index s
  | .rdbits => Sys2Proof.Machine.execRdbits s
  | .size n tol => Sys2Proof.Machine.execSize n tol s
  | .newsz n tol seed => Sys2Proof.Machine.execNewsz n tol seed s
  | .newex bitCount hashCount itemCount tol seed => Sys2Proof.Machine.execNewex bitCount hashCount itemCount tol seed s
  | .load bitCount hashCount itemCount tol seed bytes => Sys2Proof.Machine.execLoad bitCount hashCount itemCount tol seed bytes s
  | .add item => Sys2Proof.Machine.execAdd item s
  | .contains item => Sys2Proof.Machine.execContains item s
  | .rdpar => Sys2Proof.Machine.execRdpar s

end Sys2Proof.Machine
end

