-- ==== Sys2Proof/Machine/Step.lean ====
section
/-! DEFINITION. One step of the CORE (R8, R80): a reset, or the whole execution of one command, or
nothing while the command channel is empty; and how the host's checks place a command where the next
step takes it. -/

namespace Sys2Proof.Machine

/-- One step. An asserted reset comes first (R260; log entry 3). With no packet on the command
channel the CORE is idle (R242). Otherwise it takes the oldest packet (R80), answers IllegalCommand
if R85 rejects it (R236), and else executes it. -/
def step (s : State) : Host.Outcome State Fault Refusal :=
  if s.resetIn then takeReset s
  else
    match s.nextPacket with
    | none => idle s
    | some p =>
      match decode p with
      | .error reason => rejectPacket reason s.popCommand
      | .ok i => exec i s.popCommand

/-- The state with an instruction of the opcode table as the next packet the CORE takes, so that the
very next step executes it (log entry 12). -/
def State.withFetchWord (s : State) (nbits w : Nat) : State := s.place (tablePacket nbits w)

end Sys2Proof.Machine
end

