-- ==== Sys2Proof/Machine/Assembler.lean ====
section
/-! DEFINITION. The textual form of the commands (R92) and the pseudo-instructions (R93): a tool of
the host, not part of the step. Characters are told apart by their code points. -/

namespace Sys2Proof.Machine

/-- The default seed, applied by the assembler and never by the CORE (R4, R23, R93). -/
def defaultSeed : U32 := 0x9747b28c#32

/-! ### Pseudo-instructions (R93) -/

/-- `BUILD tol, seed : items` (R93(b)): NEWSZ with the number of items written, then one ADD for each;
with no item NEWSZ alone. -/
def build (tol : F64) (seed : U32) (items : List Packet) : List Instr :=
  .newsz (BitVec.ofNat 64 items.length) tol seed :: items.map .add

/-- `BUILDX bitCount, hashCount, tol, seed : items` (R93(c)). -/
def buildx (bitCount hashCount : I64) (tol : F64) (seed : U32) (items : List Packet) : List Instr :=
  .newex bitCount hashCount (BitVec.ofNat 64 items.length) tol seed :: items.map .add

/-! ### Decimal tolerances: the nearest binary64 value, ties to even (R92) -/

/-- `num / den` rounded to the nearest integer, ties to even. -/
def roundEven (num den : Nat) : Nat :=
  let q := num / den
  let twice := 2 * (num % den)
  if twice < den then q else if den < twice then q + 1 else q + q % 2

/-- The exponent `e` with `2^e <= num / den < 2^(e+1)`. -/
def floorLog (num den : Nat) : Int :=
  let g : Int := (Nat.log2 num : Int) - (Nat.log2 den : Int)
  if num * 2 ^ (-g).toNat < den * 2 ^ g.toNat then g - 1 else g

/-- The pattern of the positive binary64 value nearest to `num / den`. With the unit of the last
place `2^q`, `q >= -1074`, the rounded significand carries into the exponent field by itself. -/
def nearestF64 (num den : Nat) : Nat :=
  if num = 0 then 0
  else
    let q : Int := max (floorLog num den - 52) (-1074)
    let m := roundEven (num * 2 ^ (-q).toNat) (den * 2 ^ q.toNat)
    min ((q + 1074).toNat * 2 ^ 52 + m) 0x7FF0000000000000

/-! ### Characters -/

/-- The UTF-8 bytes of a character (R92). -/
def utf8 (c : Char) : Packet :=
  let v := c.toNat
  let cont (k : Nat) : Byte := BitVec.ofNat 8 (128 + v / 64 ^ k % 64)
  if v < 0x80 then [BitVec.ofNat 8 v]
  else if v < 0x800 then [BitVec.ofNat 8 (192 + v / 64), cont 0]
  else if v < 0x10000 then [BitVec.ofNat 8 (224 + v / 4096), cont 1, cont 0]
  else [BitVec.ofNat 8 (240 + v / 262144), cont 2, cont 1, cont 0]

/-- The value of a decimal or hexadecimal digit. -/
def digitValue (c : Char) : Option Nat :=
  let v := c.toNat
  if 48 ≤ v ∧ v ≤ 57 then some (v - 48)
  else if 97 ≤ v ∧ v ≤ 102 then some (v - 87)
  else if 65 ≤ v ∧ v ≤ 70 then some (v - 55)
  else none

/-- Spaces and tabs. -/
def skipBlank : List Char → List Char
  | [] => []
  | c :: cs => if c.toNat = 32 ∨ c.toNat = 9 then skipBlank cs else c :: cs

/-- A character with a given code point, blanks before it skipped. -/
def expectCode (code : Nat) (cs : List Char) : Option (List Char) :=
  match skipBlank cs with
  | [] => none
  | c :: rest => if c.toNat = code then some rest else none

/-- The end of a line or a comment (R92: a semicolon starts one; not one inside quotes, log entry 16),
blanks skipped. -/
def atEnd (cs : List Char) : Bool :=
  match skipBlank cs with
  | [] => true
  | c :: _ => decide (c.toNat = 59)

/-- Digits in a base: what they add to a value, how many there were, the rest. -/
def digits (base : Nat) : List Char → Nat → Nat → Nat × Nat × List Char
  | [], v, k => (v, k, [])
  | c :: cs, v, k =>
    match digitValue c with
    | some d => if d < base then digits base cs (base * v + d) (k + 1) else (v, k, c :: cs)
    | none => (v, k, c :: cs)

/-- At least one digit. -/
def digits1 (base : Nat) (cs : List Char) : Option (Nat × Nat × List Char) :=
  match digits base cs 0 0 with
  | (_, 0, _) => none
  | r => some r

/-- A given word, its characters as they are. -/
def dropWord : List Char → List Char → Option (List Char)
  | [], cs => some cs
  | _ :: _, [] => none
  | w :: ws, c :: cs => if w = c then dropWord ws cs else none

/-! ### Operands (R92) -/

/-- An integer operand: decimal, optionally with a leading minus, or `0x` hexadecimal. -/
def parseInt (cs : List Char) : Option (Int × List Char) :=
  let cs := skipBlank cs
  match dropWord "0x".toList cs with
  | some rest => (digits1 16 rest).map fun r => ((r.1 : Int), r.2.2)
  | none =>
    match dropWord "-".toList cs with
    | some rest => (digits1 10 rest).map fun r => (-(r.1 : Int), r.2.2)
    | none => (digits1 10 cs).map fun r => ((r.1 : Int), r.2.2)

/-- An I64 operand: an integer the field can hold (R82). -/
def parseI64 (cs : List Char) : Option (I64 × List Char) :=
  match parseInt cs with
  | some (v, rest) =>
    if -9223372036854775808 ≤ v ∧ v ≤ 9223372036854775807 then some (BitVec.ofInt 64 v, rest)
    else none
  | none => none

/-- A U32 operand (R82). -/
def parseU32 (cs : List Char) : Option (U32 × List Char) :=
  match parseInt cs with
  | some (v, rest) =>
    if 0 ≤ v ∧ v ≤ 4294967295 then some (BitVec.ofInt 32 v, rest) else none
  | none => none

/-- An unsigned decimal literal: its nearest pattern. DESIGN CHOICE (log entry 16), where R92 gives no
more than an example: a literal is digits, or digits, a point and digits, with no exponent. -/
def parseDecimal (cs : List Char) : Option (Nat × List Char) :=
  match digits1 10 cs with
  | none => none
  | some (v, _, rest) =>
    match dropWord ".".toList rest with
    | none => some (nearestF64 v 1, rest)
    | some rest' =>
      match digits 10 rest' v 0 with
      | (_, 0, _) => none
      | (w, k + 1, rest'') => some (nearestF64 w (10 ^ (k + 1)), rest'')

/-- A tolerance operand: a decimal literal or `f64:0x` and 16 hexadecimal digits. -/
def parseTol (cs : List Char) : Option (F64 × List Char) :=
  let cs := skipBlank cs
  match dropWord "f64:0x".toList cs with
  | some rest =>
    match digits1 16 rest with
    | some (v, 16, rest') => some (BitVec.ofNat 64 v, rest')
    | _ => none
  | none =>
    match dropWord "-".toList cs with
    | some rest => (parseDecimal rest).map fun r => (BitVec.ofNat 64 (2 ^ 63 + r.1), r.2)
    | none => (parseDecimal cs).map fun r => (BitVec.ofNat 64 r.1, r.2)

/-- The inside of a double-quoted string: UTF-8, with the two escapes of R92 and no other. DESIGN
CHOICE (log entry 16): a semicolon inside the quotes is a character of the string. -/
def parseString : List Char → Option (Packet × List Char)
  | [] => none
  | c :: cs =>
    if c.toNat = 34 then some ([], cs)
    else if c.toNat = 92 then
      match cs with
      | [] => none
      | d :: rest =>
        if d.toNat = 34 ∨ d.toNat = 92 then
          (parseString rest).map fun r => (BitVec.ofNat 8 d.toNat :: r.1, r.2)
        else none
    else (parseString cs).map fun r => (utf8 c ++ r.1, r.2)

/-- The inside of an `x` string: an even number of hexadecimal digits. -/
def parseHex : List Char → Option (Packet × List Char)
  | [] => none
  | [c] => if c.toNat = 34 then some ([], []) else none
  | c :: d :: rest =>
    if c.toNat = 34 then some ([], d :: rest)
    else
      match digitValue c, digitValue d with
      | some h, some l => (parseHex rest).map fun r => (BitVec.ofNat 8 (16 * h + l) :: r.1, r.2)
      | _, _ => none

/-- An item or bytes operand. -/
def parseBytes (cs : List Char) : Option (Packet × List Char) :=
  match skipBlank cs with
  | [] => none
  | c :: rest =>
    if c.toNat = 34 then parseString rest
    else if c.toNat = 120 then
      match rest with
      | [] => none
      | d :: rest' => if d.toNat = 34 then parseHex rest' else none
    else none

/-- A comma and then an operand. -/
def andThen {α : Type} (p : List Char → Option (α × List Char)) (cs : List Char) :
    Option (α × List Char) :=
  match expectCode 44 cs with
  | some rest => p rest
  | none => none

/-- The optional seed of NEWSZ, NEWEX, BUILD and BUILDX: the default when no comma follows
(R93(a)). -/
def parseSeed (cs : List Char) : Option (U32 × List Char) :=
  match expectCode 44 cs with
  | some rest => parseU32 rest
  | none => some (defaultSeed, cs)

/-- Further items, each after a comma; `fuel` bounds their number by the length of the line. -/
def parseMoreItems : Nat → List Char → Option (List Packet × List Char)
  | 0, cs => some ([], cs)
  | fuel + 1, cs =>
    match expectCode 44 cs with
    | none => some ([], cs)
    | some rest =>
      match parseBytes rest with
      | none => none
      | some (item, rest') => (parseMoreItems fuel rest').map fun r => (item :: r.1, r.2)

/-- The item list of a pseudo-instruction after its colon, possibly empty. -/
def parseItems (cs : List Char) : Option (List Packet × List Char) :=
  match expectCode 58 cs with
  | none => none
  | some rest =>
    if atEnd rest then some ([], rest)
    else
      match parseBytes rest with
      | none => none
      | some (item, rest') =>
        (parseMoreItems rest'.length rest').map fun r => (item :: r.1, r.2)

/-! ### Lines -/

/-- The word at the start of a line: capitals and digits. -/
def takeMnemonic : List Char → List Char × List Char
  | [] => ([], [])
  | c :: cs =>
    if (65 ≤ c.toNat ∧ c.toNat ≤ 90) ∨ (48 ≤ c.toNat ∧ c.toNat ≤ 57) then
      let r := takeMnemonic cs
      (c :: r.1, r.2)
    else ([], c :: cs)

/-- The operands of a mnemonic and what is left of the line; a pseudo-instruction gives several
commands. -/
def parseOperands (mnemonic cs : List Char) : Option (List Instr × List Char) :=
  if mnemonic = "FNV1A".toList then do
    let (item, cs) ← parseBytes cs
    return ([.fnv1a item], cs)
  else if mnemonic = "MURMUR3".toList then do
    let (seed, cs) ← parseU32 cs
    let (item, cs) ← andThen parseBytes cs
    return ([.murmur3 seed item], cs)
  else if mnemonic = "INDICES".toList then do
    let (hashCount, cs) ← parseI64 cs
    let (bitCount, cs) ← andThen parseI64 cs
    let (seed, cs) ← andThen parseU32 cs
    let (item, cs) ← andThen parseBytes cs
    return ([.indices hashCount bitCount seed item], cs)
  else if mnemonic = "SETBIT".toList then do
    let (index, cs) ← parseI64 cs
    return ([.setbit index], cs)
  else if mnemonic = "GETBIT".toList then do
    let (index, cs) ← parseI64 cs
    return ([.getbit index], cs)
  else if mnemonic = "RDBITS".toList then some ([.rdbits], cs)
  else if mnemonic = "SIZE".toList then do
    let (n, cs) ← parseI64 cs
    let (tol, cs) ← andThen parseTol cs
    return ([.size n tol], cs)
  else if mnemonic = "NEWSZ".toList then do
    let (n, cs) ← parseI64 cs
    let (tol, cs) ← andThen parseTol cs
    let (seed, cs) ← parseSeed cs
    return ([.newsz n tol seed], cs)
  else if mnemonic = "NEWEX".toList then do
    let (bitCount, cs) ← parseI64 cs
    let (hashCount, cs) ← andThen parseI64 cs
    let (itemCount, cs) ← andThen parseI64 cs
    let (tol, cs) ← andThen parseTol cs
    let (seed, cs) ← parseSeed cs
    return ([.newex bitCount hashCount itemCount tol seed], cs)
  else if mnemonic = "LOAD".toList then do
    let (bitCount, cs) ← parseI64 cs
    let (hashCount, cs) ← andThen parseI64 cs
    let (itemCount, cs) ← andThen parseI64 cs
    let (tol, cs) ← andThen parseTol cs
    let (seed, cs) ← andThen parseU32 cs
    let (bytes, cs) ← andThen parseBytes cs
    return ([.load bitCount hashCount itemCount tol seed bytes], cs)
  else if mnemonic = "ADD".toList then do
    let (item, cs) ← parseBytes cs
    return ([.add item], cs)
  else if mnemonic = "CONTAINS".toList then do
    let (item, cs) ← parseBytes cs
    return ([.contains item], cs)
  else if mnemonic = "RDPAR".toList then some ([.rdpar], cs)
  else if mnemonic = "BUILD".toList then do
    let (tol, cs) ← parseTol cs
    let (seed, cs) ← parseSeed cs
    let (items, cs) ← parseItems cs
    return (build tol seed items, cs)
  else if mnemonic = "BUILDX".toList then do
    let (bitCount, cs) ← parseI64 cs
    let (hashCount, cs) ← andThen parseI64 cs
    let (tol, cs) ← andThen parseTol cs
    let (seed, cs) ← parseSeed cs
    let (items, cs) ← parseItems cs
    return (buildx bitCount hashCount tol seed items, cs)
  else none

/-- One line: a command or pseudo-instruction with nothing after it but a comment (R92, R93), `none`
where it is not. DESIGN CHOICE (log entry 16), where R92 says one command per line: a line with no
command, blank or only a comment, is accepted and stands for zero commands; blanks may stand before the
mnemonic, and none need stand between it and its first operand. -/
def assembleLine (cs : List Char) : Option (List Instr) :=
  if atEnd cs then some []
  else
    let r := takeMnemonic (skipBlank cs)
    match parseOperands r.1 r.2 with
    | some (is, rest) => if atEnd rest then some is else none
    | none => none

/-! ### Printing a command (R92): integers in decimal, tolerances by pattern, bytes in hexadecimal -/

/-- A hexadecimal digit. -/
def hexDigit (d : Nat) : Char := Char.ofNat (if d < 10 then 48 + d else 87 + d)

/-- The `k` low hexadecimal digits of a number, most significant first. -/
def hexDigits : Nat → Nat → List Char
  | 0, _ => []
  | k + 1, v => hexDigits k (v / 16) ++ [hexDigit (v % 16)]

/-- The decimal digits of a number; `fuel` is at least their count. -/
def decDigits : Nat → Nat → List Char
  | 0, _ => []
  | fuel + 1, v => (if v < 10 then [] else decDigits fuel (v / 10)) ++ [hexDigit (v % 10)]

/-- An I64 operand. -/
def printI64 (v : I64) : List Char :=
  if v.toInt < 0 then Char.ofNat 45 :: decDigits 20 (-v.toInt).toNat else decDigits 20 v.toNat

/-- A U32 operand. -/
def printU32 (v : U32) : List Char := "0x".toList ++ hexDigits 8 v.toNat

/-- A tolerance operand. -/
def printTol (t : F64) : List Char := "f64:0x".toList ++ hexDigits 16 t.toNat

/-- An item or bytes operand. -/
def printBytes (b : Packet) : List Char :=
  Char.ofNat 120 :: Char.ofNat 34 :: (b.flatMap fun x => hexDigits 2 x.toNat) ++ [Char.ofNat 34]

/-- Operands with commas between them, after a blank. -/
def printOperands : List (List Char) → List Char
  | [] => []
  | [o] => Char.ofNat 32 :: o
  | o :: os => Char.ofNat 32 :: o ++ Char.ofNat 44 :: printOperands os

/-- The text of a command. -/
def printLine : Instr → List Char
  | .fnv1a item => "FNV1A".toList ++ printOperands [printBytes item]
  | .murmur3 seed item => "MURMUR3".toList ++ printOperands [printU32 seed, printBytes item]
  | .indices hashCount bitCount seed item => "INDICES".toList ++
      printOperands [printI64 hashCount, printI64 bitCount, printU32 seed, printBytes item]
  | .setbit index => "SETBIT".toList ++ printOperands [printI64 index]
  | .getbit index => "GETBIT".toList ++ printOperands [printI64 index]
  | .rdbits => "RDBITS".toList
  | .size n tol => "SIZE".toList ++ printOperands [printI64 n, printTol tol]
  | .newsz n tol seed => "NEWSZ".toList ++ printOperands [printI64 n, printTol tol, printU32 seed]
  | .newex bitCount hashCount itemCount tol seed => "NEWEX".toList ++
      printOperands [printI64 bitCount, printI64 hashCount, printI64 itemCount, printTol tol,
        printU32 seed]
  | .load bitCount hashCount itemCount tol seed bytes => "LOAD".toList ++
      printOperands [printI64 bitCount, printI64 hashCount, printI64 itemCount, printTol tol,
        printU32 seed, printBytes bytes]
  | .add item => "ADD".toList ++ printOperands [printBytes item]
  | .contains item => "CONTAINS".toList ++ printOperands [printBytes item]
  | .rdpar => "RDPAR".toList

end Sys2Proof.Machine
end

