-- ==== Sys2Proof/Machine/Container.lean ====
section
/-! DEFINITION. The container in which a host keeps a filter (R37, R62): its seven keys, how they come
out of the responses of RDPAR and RDBITS and go into a LOAD, and base64 (R63). A tool of the host, not
part of the step (R3(b)). The property-list syntax around the keys is not given by the spec and not
modelled. -/

namespace Sys2Proof.Machine

/-! ### Base64 (R63; log entry 17) -/

/-- The character of a 6-bit value. -/
def sextetChar (v : Nat) : Char :=
  Char.ofNat (if v < 26 then 65 + v else if v < 52 then 71 + v else if v < 62 then v - 4
    else if v = 62 then 43 else 47)

/-- The 6-bit value of a character. -/
def sextetValue (c : Char) : Option Nat :=
  let v := c.toNat
  if 65 ≤ v ∧ v ≤ 90 then some (v - 65)
  else if 97 ≤ v ∧ v ≤ 122 then some (v - 71)
  else if 48 ≤ v ∧ v ≤ 57 then some (v + 4)
  else if v = 43 then some 62
  else if v = 47 then some 63
  else none

/-- The padding character. -/
def base64Pad : Char := Char.ofNat 61

/-- Three bytes to four characters, the most significant sextet first; a rest of one or two bytes is
filled up with zero bits and padding. -/
def base64Encode : Packet → List Char
  | [] => []
  | [a] =>
    let w := a.toNat * 16
    [sextetChar (w / 64), sextetChar (w % 64), base64Pad, base64Pad]
  | [a, b] =>
    let w := (a.toNat * 256 + b.toNat) * 4
    [sextetChar (w / 4096), sextetChar (w / 64 % 64), sextetChar (w % 64), base64Pad]
  | a :: b :: c :: rest =>
    let w := (a.toNat * 256 + b.toNat) * 256 + c.toNat
    sextetChar (w / 262144) :: sextetChar (w / 4096 % 64) :: sextetChar (w / 64 % 64) ::
      sextetChar (w % 64) :: base64Encode rest

/-- Four characters to three bytes; padding only at the end. `none` where the text is no base64. -/
def base64Decode : List Char → Option Packet
  | [] => some []
  | c0 :: c1 :: c2 :: c3 :: rest =>
    match sextetValue c0, sextetValue c1, sextetValue c2, sextetValue c3 with
    | some v0, some v1, some v2, some v3 =>
      let w := ((v0 * 64 + v1) * 64 + v2) * 64 + v3
      (base64Decode rest).map fun bs =>
        BitVec.ofNat 8 (w / 65536) :: BitVec.ofNat 8 (w / 256) :: BitVec.ofNat 8 w :: bs
    | some v0, some v1, some v2, none =>
      let w := (v0 * 64 + v1) * 64 + v2
      if c3 = base64Pad ∧ rest = [] then
        some [BitVec.ofNat 8 (w / 1024), BitVec.ofNat 8 (w / 4)]
      else none
    | some v0, some v1, none, none =>
      if c2 = base64Pad ∧ c3 = base64Pad ∧ rest = [] then
        some [BitVec.ofNat 8 ((v0 * 64 + v1) / 16)]
      else none
    | _, _, _, _ => none
  | _ => none

/-! ### The seven keys (R62) -/

/-- What the container holds, one field per key. -/
structure Container where
  /-- BITS, base64 coded. -/
  bitVectorData : List Char
  /-- TOL. -/
  falsePositiveTolerance : F64
  /-- SEED. -/
  murmurSeed : U32
  /-- BITCOUNT. -/
  numberOfBits : I64
  /-- NBYTES, "redundant ...; written for convenience". -/
  numberOfBytes : U32
  /-- HASHCOUNT. -/
  numberOfHashes : I64
  /-- ITEMCOUNT. -/
  numberOfItems : I64
deriving DecidableEq, Repr

/-- R37: "A host saves a filter by RDPAR and RDBITS and writes the seven keys". The two arguments are
the response packets; of RDBITS' response only DATA is stored (R154). -/
def saveContainer (parameters buffer : Packet) : Container where
  bitVectorData := base64Encode (buffer.drop 8)
  falsePositiveTolerance := f64At parameters 28
  murmurSeed := u32At parameters 36
  numberOfBits := i64At parameters 4
  numberOfBytes := u32At parameters 40
  numberOfHashes := i64At parameters 12
  numberOfItems := i64At parameters 20

/-- R37: "it restores one by LOAD with the six values it needs (`numberOfBytes` is not an input)".
`none` where the buffer is no base64. -/
def restoreCommand (c : Container) : Option Instr :=
  (base64Decode c.bitVectorData).map fun bytes =>
    .load c.numberOfBits c.numberOfHashes c.numberOfItems c.falsePositiveTolerance c.murmurSeed bytes

end Sys2Proof.Machine
end

