-- ==== Sys2Proof/Machine/HostSide.lean ====
section
/-! DEFINITION. Running commands one after another (R58), and what a host does with the expansion of a
pseudo-instruction (R93, R263). -/

namespace Sys2Proof.Machine

/-- Execute commands one after another, in order, each to completion (R58). -/
def execAll : List Instr → State → Host.Outcome State Fault Refusal
  | [], s => .next s
  | i :: rest, s =>
    match exec i s with
    | .next t => execAll rest t
    | .fault r => .fault r
    | .refused r => .refused r

/-- Whether the newest response says OK (R86). -/
def lastOk (s : State) : Bool :=
  match s.responses.getLast? with
  | none => false
  | some r => decide (statusWord r = statusCode .ok)

/-- R93, R263: the first command of an expansion, and the ADDs only if it succeeded: "If the NEWSZ or
NEWEX of an expansion fails, the ADDs of that expansion must not be sent". -/
def runExpansion : List Instr → State → Host.Outcome State Fault Refusal
  | [], s => .next s
  | i :: rest, s =>
    match exec i s with
    | .next t => if lastOk t then execAll rest t else .next t
    | .fault r => .fault r
    | .refused r => .refused r

end Sys2Proof.Machine
end

