-- ==== Sys2Proof/Safety.lean ====
section
/-! DEFINITION. What a legal state is (R20, R26, R86, R87), which states a CORE and its host can
reach (R8, R80, R260), in the terms the claims use. -/

namespace Sys2Proof.Machine

/-- The largest count an I64 holds (R82). -/
def maxCount : Nat := 9223372036854775807

/-- The legal values of a filter context (R20, R21, R22, R24, R25, R26) and the canonical form of its
memory, inside the buffer (R50). -/
def FilterContext.wf (c : Config) (f : FilterContext) : Bool :=
  decide (1 ≤ f.bitCount) && decide (f.bitCount ≤ maxCount) &&
  decide (1 ≤ f.hashCount) && decide (f.hashCount ≤ maxCount) &&
  decide (f.itemCount ≤ maxCount) && toleranceOk f.tol &&
  decide (1 ≤ f.nbytes) && decide (f.nbytes ≤ c.maxBytes) &&
  Memory.wf f.bits && Memory.below f.nbytes f.bits

/-- A legal state: legal parameters, a legal filter if one is held, and only legal response packets on
the response channel. -/
def State.wf (s : State) : Bool :=
  s.config.wf && s.context.all (FilterContext.wf s.config) && s.responses.all legalResponse

/-- The buffer covers every derived index: NBYTES is at least `ceil(BITCOUNT / 8)` (R142, R194). -/
def FilterContext.covers (f : FilterContext) : Bool := decide (f.bitCount ≤ 8 * f.nbytes)

/-- The states reachable from reset with given parameters, under the steps of the CORE and the moves
of the host (R80): submit a packet, take a response, assert reset. -/
inductive Reachable (c : Config) : State → Prop where
  | reset : Reachable c { State.reset with config := c }
  | step {s t : State} : Reachable c s → step s = .next t → Reachable c t
  | submit {s : State} (p : Packet) : Reachable c s → Reachable c (s.submit p)
  | takeResponse {s : State} : Reachable c s → Reachable c s.takeResponse
  | assertReset {s : State} : Reachable c s → Reachable c s.assertReset

end Sys2Proof.Machine
end

