-- ==== Sys2Proof/Certificates/Slice0/Obligations.lean ====
section
/-! DEFINITION. The statements for the provers: what the rules of spec/ say each command and the
machine do. Responses are written as their bytes: `[0, 0, 0, 0]` is the status word OK (R86, R87). -/

open Sys2Proof Sys2Proof.Machine

/-! ### Helpers that restate tables of the spec independently of the decoder and the meanings -/

/-- The table of R89 with the fixed lengths of R85 and whether the format has DATA (R83): opcode,
fixed length, has DATA. -/
def Sys2Proof.ruleTable : List (Byte × Nat × Bool) :=
  [(0x10, 8, true), (0x11, 12, true), (0x20, 28, true), (0x30, 12, false), (0x31, 12, false),
   (0x32, 4, false), (0x40, 20, false), (0x50, 24, false), (0x51, 40, false), (0x52, 44, true),
   (0x53, 8, true), (0x54, 8, true), (0x55, 4, false)]

/-- R85's verdict in words: the header is well formed, the opcode is assigned, and the length is
exactly what the format and its LEN field say. -/
def Sys2Proof.LegalPacket (p : Packet) : Prop :=
  4 ≤ p.length ∧ (∀ a, 1 ≤ a → a ≤ 3 → p.getD a 0 = 0) ∧
  ∃ row ∈ ruleTable, p.getD 0 0 = row.1 ∧ row.2.1 ≤ p.length ∧
    p.length = row.2.1 + (if row.2.2 then leNat ((p.drop (row.2.1 - 4)).take 4) else 0)

/-- The tolerance test of R192 on the exact value. -/
def Sys2Proof.ruleTolerance (t : F64) : Bool :=
  decide (f64Exponent t ≠ 2047) && decide (0 < f64Real t) && decide (f64Real t < 1)

/-- Every cause of InvalidParameter (R231). -/
def Sys2Proof.ruleInvalid : Instr → Bool
  | .newsz n tol _ => !ruleTolerance tol || decide (n.toInt ≤ 0)
  | .newex bitCount hashCount itemCount tol _ =>
      !ruleTolerance tol || decide (bitCount.toInt ≤ 0) || decide (hashCount.toInt ≤ 0) ||
        decide (itemCount.toInt < 0)
  | .load bitCount hashCount itemCount tol _ bytes =>
      decide (bytes = []) || !ruleTolerance tol || decide (bitCount.toInt ≤ 0) ||
        decide (hashCount.toInt ≤ 0) || decide (itemCount.toInt < 0)
  | .size n tol => !ruleTolerance tol || decide (n.toInt ≤ 0)
  | .indices hashCount bitCount _ _ => decide (bitCount.toInt ≤ 0) || decide (hashCount.toInt < 0)
  | .fnv1a _ => false
  | .murmur3 _ _ => false
  | .setbit _ => false
  | .getbit _ => false
  | .rdbits => false
  | .add _ => false
  | .contains _ => false
  | .rdpar => false

/-- When a sizing result does not fit (R235). -/
def Sys2Proof.ruleUnrepresentable (c : Config) : Instr → Bool
  | .newsz n tol _ => decide (maxCount < sizeBits c n.toInt.toNat tol)
  | .size n tol => decide (maxCount < sizeBits c n.toInt.toNat tol)
  | .fnv1a _ | .murmur3 _ _ | .indices _ _ _ _ | .setbit _ | .getbit _ | .rdbits => false
  | .newex _ _ _ _ _ | .load _ _ _ _ _ _ | .add _ | .contains _ | .rdpar => false

/-- When a construction needs more than MAXBYTES (R234). -/
def Sys2Proof.ruleOverCapacity (c : Config) : Instr → Bool
  | .newsz n tol _ => decide (c.maxBytes < (sizeBits c n.toInt.toNat tol + 7) / 8)
  | .newex bitCount _ _ _ _ => decide (c.maxBytes < (bitCount.toInt.toNat + 7) / 8)
  | .load _ _ _ _ _ bytes => decide (c.maxBytes < bytes.length)
  | .fnv1a _ | .murmur3 _ _ | .indices _ _ _ _ | .setbit _ | .getbit _ | .rdbits => false
  | .size _ _ | .add _ | .contains _ | .rdpar => false

/-- The status R237 asks for: of the conditions that hold, the first in its order. -/
def Sys2Proof.ruleStatus (i : Instr) (s : State) : Status :=
  if i.needsFilter && !s.valid then .noFilter
  else if ruleInvalid i then .invalidParameter
  else if ruleUnrepresentable s.config i then .unrepresentable
  else if ruleOverCapacity s.config i then .capacityExceeded
  else .ok

/-- The three operations on a chunk and on the hash, as R122 writes them (`*32`, `+32`, `rotl32`). -/
def Sys2Proof.ruleChunk (h k : U32) : U32 :=
  let k := k * 0xcc9e2d51#32
  let k := rotl32 k 15
  let k := k * 0x1b873593#32
  let h := h ^^^ k
  let h := rotl32 h 13
  h * 5#32 + 0xe6546b64#32

/-- `Murmur(b, seed)` as the indexed loops of R122. -/
def Sys2Proof.ruleMurmur (b : Packet) (seed : U32) : U32 :=
  let byte (j : Nat) : U32 := (b.getD j 0).setWidth 32
  let n := b.length
  let nblocks := n / 4
  let h := (List.range nblocks).foldl (fun h j => ruleChunk h
    (byte (4 * j) ||| byte (4 * j + 1) <<< 8 ||| byte (4 * j + 2) <<< 16 |||
      byte (4 * j + 3) <<< 24)) seed
  let t := n % 4
  let h := if 0 < t then
      let k := (List.range t).foldl (fun k q => k ||| byte (4 * nblocks + q) <<< (8 * q)) 0#32
      let k := k * 0xcc9e2d51#32
      let k := rotl32 k 15
      let k := k * 0x1b873593#32
      h ^^^ k
    else h
  let h := h ^^^ BitVec.ofNat 32 (n % 2 ^ 32)
  let h := h ^^^ (h >>> 16)
  let h := h * 0x85ebca6b#32
  let h := h ^^^ (h >>> 13)
  let h := h * 0xc2b2ae35#32
  h ^^^ (h >>> 16)

/-- The commands whose row in R89 says that they write no state. -/
def Sys2Proof.ruleReadOnly : Instr → Bool
  | .fnv1a _ => true
  | .murmur3 _ _ => true
  | .indices _ _ _ _ => true
  | .getbit _ => true
  | .rdbits => true
  | .size _ _ => true
  | .contains _ => true
  | .rdpar => true
  | .setbit _ => false
  | .newsz _ _ _ => false
  | .newex _ _ _ _ _ => false
  | .load _ _ _ _ _ _ => false
  | .add _ => false

/-! ### Encoding -/

/-- R83, R85, R89: no bit of an encoding is dropped. Every command the interface can carry is decoded
from its packet, with every operand at every value. -/
def Obligations.DecodeOfEncode : Prop :=
  ∀ i : Instr, i.wellFormed = true → decode (encode i) = .ok i

/-- R83, R85, R90: every packet the decoder accepts is the one encoding of the command it reads, so no
two packets mean the same command and the command is one the interface can carry. -/
def Obligations.EncodeOfDecode : Prop :=
  ∀ (p : Packet) (i : Instr), decode p = .ok i → encode i = p ∧ i.wellFormed = true

/-- R85: "A packet is thus legal exactly when its header is well formed, its opcode is assigned and
its length is exactly what its format and its LEN field say." -/
def Obligations.LegalPacketsAreThoseOfTheTable : Prop :=
  ∀ p : Packet, (∃ i, decode p = .ok i) ↔ LegalPacket p

/-- Packets written out in 95_test_vectors.md (ADD of "a" in section 9, program P5, the others in
section 7) decode to the commands it names, or are rejected as it says. -/
def Obligations.SpecPacketsDecode : Prop :=
  decode [0x55, 0, 0, 0] = .ok .rdpar ∧
  decode [0x53, 0, 0, 0, 1, 0, 0, 0, 0x61] = .ok (.add [0x61]) ∧
  decode [0x11, 0, 0, 0, 0x8c, 0xb2, 0x47, 0x97, 3, 0, 0, 0, 0x61, 0x62, 0x63] =
    .ok (.murmur3 0x9747b28c [0x61, 0x62, 0x63]) ∧
  decode [0x31, 0, 0, 0, 0xff, 0xff, 0xff, 0xff, 0xff, 0xff, 0xff, 0xff] =
    .ok (.getbit 0xffffffffffffffff) ∧
  decode [0x40, 0, 0, 0, 0x0a, 0, 0, 0, 0, 0, 0, 0, 0xfc, 0xa9, 0xf1, 0xd2, 0x4d, 0x62, 0x50, 0x3f] =
    .ok (.size 10 0x3F50624DD2F1A9FC) ∧
  decode [0x32, 0, 0, 0x80] = .error .reservedBits ∧
  decode [0x33, 0, 0, 0] = .error .reservedOpcode ∧
  decode [0x10, 0, 0, 0, 2, 0, 0, 0, 0x61] = .error .wrongLength

/-- R92: the text of a command assembles back to that command, for every command and every operand
value. The text has indices and counts (I64) in decimal, seeds in `0x` hexadecimal, tolerances by
pattern and bytes in hexadecimal. -/
def Obligations.PrintedCommandsAssembleBack : Prop :=
  ∀ i : Instr, assembleLine (printLine i) = some [i]

/-! ### Steps -/

/-- R8, R80, R85: when the oldest packet on the command channel decodes, the step takes it off the
channel and executes the command it decodes to, and does nothing else. -/
def Obligations.StepRunsDecodedCommand : Prop :=
  ∀ (s : State) (p : Packet) (rest : List Packet) (i : Instr),
    s.resetIn = false → s.commands = p :: rest → decode p = .ok i →
    step s = exec i { s with commands := rest }

/-- R85, R90, R236: a packet that is not legal is answered IllegalCommand, decided from the packet
alone, and nothing else changes. -/
def Obligations.IllegalPacketsAnswerIllegalCommand : Prop :=
  ∀ (s : State) (p : Packet) (rest : List Packet),
    s.resetIn = false → s.commands = p :: rest → ¬ LegalPacket p →
    step s = .next { s with commands := rest, responses := s.responses ++ [[5, 0, 0, 0]] }

/-- R242: between commands the CORE holds its state. -/
def Obligations.IdleHoldsTheState : Prop :=
  ∀ s : State, s.resetIn = false → s.commands = [] → step s = .next s

/-- R260: an asserted reset leaves VALID = 0 and both channels empty (so nothing is answered for what
was in progress), and no other step of a CORE with VALID = 1 makes VALID 0. The parameters of the
implementation stay. (That reset is taken at the start of a step and that the same step releases the
reset input is the model's choice, log entry 3.) -/
def Obligations.ResetAloneClearsValid : Prop :=
  (∀ s : State, s.resetIn = true → ∃ t, step s = .next t ∧ t.valid = false ∧ t.commands = [] ∧
    t.responses = [] ∧ t.resetIn = false ∧ t.config = s.config) ∧
  (∀ s t : State, s.resetIn = false → s.valid = true → step s = .next t → t.valid = true)

/-- R267 (with R80, R86, R87): whatever the packet and whatever the state, the step answers a next
state with exactly one response packet more, a legal one; the other packets wait, and the parameters
stay. -/
def Obligations.EveryCommandAnswersOnce : Prop :=
  ∀ (s : State) (p : Packet) (rest : List Packet), s.resetIn = false → s.commands = p :: rest →
    ∃ t r, step s = .next t ∧ t.responses = s.responses ++ [r] ∧ legalResponse r = true ∧
      t.commands = rest ∧ t.resetIn = false ∧ t.config = s.config

/-- R238: a command whose status is not OK, the packet that is no command among them, changes nothing
but the two channels: it is taken from the one and the status word alone is put on the other. -/
def Obligations.FailureChangesNothing : Prop :=
  (∀ (i : Instr) (s t : State) (r : Packet), exec i s = .next t →
    t.responses = s.responses ++ [r] → statusWord r ≠ 0 →
    t = { s with responses := s.responses ++ [r] } ∧ r.length = 4) ∧
  (∀ (s t : State) (p r : Packet) (rest : List Packet), s.resetIn = false → s.commands = p :: rest →
    step s = .next t → t.responses = s.responses ++ [r] → statusWord r ≠ 0 →
    t = { s with commands := rest, responses := s.responses ++ [r] } ∧ r.length = 4)

/-- R237 with the causes of R231, R233, R234, R235 and R236: every packet is answered by the status that
comes first in the order among the conditions that hold: IllegalCommand from the packet alone, and for
a command its own. (LOAD's causes other than the empty buffer are "applied to LOAD by the spec (D17)";
log entry 11.) -/
def Obligations.StatusFollowsThePriority : Prop :=
  (∀ (i : Instr) (s : State), ∃ t r, exec i s = .next t ∧ t.responses = s.responses ++ [r] ∧
    statusWord r = statusCode (ruleStatus i s)) ∧
  (∀ (s : State) (p : Packet) (rest : List Packet), s.resetIn = false → s.commands = p :: rest →
    ∃ t r, step s = .next t ∧ t.responses = s.responses ++ [r] ∧
      (¬ LegalPacket p → statusWord r = 5) ∧
      ∀ i, decode p = .ok i → statusWord r = statusCode (ruleStatus i s))

/-- R233: while VALID = 0, SETBIT, GETBIT, RDBITS, ADD, CONTAINS and RDPAR answer NoFilter. -/
def Obligations.NoFilterIsAnswered : Prop :=
  ∀ (i : Instr) (s : State), i.needsFilter = true → s.context = none →
    exec i s = .next { s with responses := s.responses ++ [[2, 0, 0, 0]] }

/-- R58: packets queued on the command channel are executed one at a time in the order they were
submitted, each to completion, with the same end as executing the commands one after another. -/
def Obligations.QueuedCommandsRunInOrder : Prop :=
  ∀ (s : State) (is : List Instr), s.resetIn = false → s.commands = [] →
    (∀ i ∈ is, i.wellFormed = true) →
    ∃ t, core.run is.length { s with commands := is.map encode } = .next t ∧
      execAll is s = .next t ∧ t.commands = [] ∧
      t.responses.length = s.responses.length + is.length

/-! ### HashEngine -/

/-- R120: the offset basis for the empty sequence, and for each byte first the multiplication, then
the exclusive or with the zero-extended byte. -/
def Obligations.FnvMultipliesThenXors : Prop :=
  fnv [] = 0x811c9dc5#32 ∧
  ∀ (b : Packet) (x : Byte), fnv (b ++ [x]) = (fnv b * 0x01000193#32) ^^^ x.setWidth 32

/-- R120: since the byte is the last thing mixed in, items that differ only in their last byte differ
only in the low 8 bits of the hash, by the exclusive or of the bytes; and a common suffix never makes
different hashes meet or equal hashes part. -/
def Obligations.FnvKeepsDifferences : Prop :=
  (∀ (b : Packet) (x y : Byte), fnv (b ++ [x]) ^^^ fnv (b ++ [y]) = (x ^^^ y).setWidth 32) ∧
  (∀ a b c : Packet, fnv (a ++ c) = fnv (b ++ c) ↔ fnv a = fnv b)

/-- R121: FNV1A, opcode 0x10 in format B, answers OK and the hash of its item, whatever the context
holds; nothing else changes. -/
def Obligations.Fnv1aAnswers : Prop :=
  (∀ item : Packet, encode (.fnv1a item) =
    [0x10, 0, 0, 0] ++ (leBytes 4 item.length ++ item)) ∧
  (∀ (s : State) (item : Packet), exec (.fnv1a item) s =
    .next { s with responses := s.responses ++ [[0, 0, 0, 0] ++ leBytes 4 (fnv item).toNat] })

/-- R122: the hash is the one of the indexed loops the rule writes out. -/
def Obligations.MurmurFollowsTheLoops : Prop :=
  ∀ (b : Packet) (seed : U32), murmur b seed = ruleMurmur b seed

/-- R122: every step from the seed to the result is a bijection of the hash, so for one item
different seeds give different results. -/
def Obligations.MurmurSeparatesSeeds : Prop :=
  ∀ (b : Packet) (seed seed' : U32), murmur b seed = murmur b seed' → seed = seed'

/-- R123: MURMUR3, opcode 0x11 in format SB, answers OK and the hash of its item under the seed
operand, whatever the context holds; nothing else changes. -/
def Obligations.Murmur3Answers : Prop :=
  (∀ (seed : U32) (item : Packet), encode (.murmur3 seed item) =
    [0x11, 0, 0, 0] ++ (leBytes 4 seed.toNat ++ (leBytes 4 item.length ++ item))) ∧
  (∀ (s : State) (seed : U32) (item : Packet), exec (.murmur3 seed item) s =
    .next { s with
      responses := s.responses ++ [[0, 0, 0, 0] ++ leBytes 4 (murmur item seed).toNat] })

/-! ### IndexDeriver -/

/-- R140: `hashCount` members, `index_i` reduced modulo 2^32 first and modulo `bitCount` then. -/
def Obligations.IndicesFollowTheRule : Prop :=
  ∀ (item : Packet) (hashCount bitCount : Nat) (seed : U32), 1 ≤ bitCount →
    (indices item hashCount bitCount seed).length = hashCount ∧
    ∀ i, i < hashCount → (indices item hashCount bitCount seed).getD i 0 =
      ((fnv item).toNat + (i % 2 ^ 32) * (murmur item seed).toNat) % 2 ^ 32 % bitCount

/-- R142: every derived index is below the bit count and below 2^32; in a filter whose buffer has
`ceil(BITCOUNT / 8)` bytes it is in range and no padding index; in any filter an index from
`8 * NBYTES` on is out of range. -/
def Obligations.DerivedIndicesAreInRange : Prop :=
  (∀ (item : Packet) (hashCount bitCount : Nat) (seed : U32), 1 ≤ bitCount →
    ∀ i ∈ indices item hashCount bitCount seed, i < bitCount ∧ i < 2 ^ 32) ∧
  (∀ (f : FilterContext) (item : Packet), 1 ≤ f.bitCount → f.nbytes = (f.bitCount + 7) / 8 →
    ∀ i ∈ filterIndices f item, inRange f (i : Int) = true ∧ i < f.bitCount) ∧
  (∀ (f : FilterContext) (i : Nat), f.nbytes ≤ i / 8 → inRange f (i : Int) = false)

/-- R140, R143: `index_0` depends on the FNV hash alone, and when the second hash is 0 all members are
equal to it. -/
def Obligations.FirstIndexIgnoresTheSeed : Prop :=
  (∀ (item : Packet) (hashCount bitCount : Nat) (seed : U32), 1 ≤ hashCount →
    (indices item hashCount bitCount seed).head? = some ((fnv item).toNat % bitCount)) ∧
  (∀ (item : Packet) (hashCount bitCount : Nat) (seed : U32), murmur item seed = 0 →
    ∀ i ∈ indices item hashCount bitCount seed, i = (fnv item).toNat % bitCount)

/-- R141: INDICES, opcode 0x20 in format IB, answers OK and the derived indices as U32 fields when
`bitCount > 0` and `hashCount >= 0`, and InvalidParameter otherwise; nothing else changes. -/
def Obligations.IndicesAnswers : Prop :=
  (∀ (hashCount bitCount : I64) (seed : U32) (item : Packet),
    encode (.indices hashCount bitCount seed item) = [0x20, 0, 0, 0] ++
      (leBytes 8 hashCount.toNat ++ (leBytes 8 bitCount.toNat ++ (leBytes 4 seed.toNat ++
        (leBytes 4 item.length ++ item))))) ∧
  (∀ (s : State) (hashCount bitCount : I64) (seed : U32) (item : Packet),
    0 < bitCount.toInt → 0 ≤ hashCount.toInt →
    exec (.indices hashCount bitCount seed item) s = .next { s with
      responses := s.responses ++ [[0, 0, 0, 0] ++
        (indices item hashCount.toInt.toNat bitCount.toInt.toNat seed).flatMap (leBytes 4)] }) ∧
  (∀ (s : State) (hashCount bitCount : I64) (seed : U32) (item : Packet),
    bitCount.toInt ≤ 0 ∨ hashCount.toInt < 0 →
    exec (.indices hashCount bitCount seed item) s =
      .next { s with responses := s.responses ++ [[1, 0, 0, 0]] })

/-! ### BitStore -/

/-- R150, R152 (bit order R51): SETBIT, opcode 0x30 in format X. Without a filter it answers NoFilter.
With one it answers OK; an index in range sets bit `index mod 8` of byte `index div 8` and leaves every
other byte, the parameters and the rest of the state as they were; an index out of range or negative
changes nothing in the filter. -/
def Obligations.SetbitAnswers : Prop :=
  (∀ index : I64, encode (.setbit index) = [0x30, 0, 0, 0] ++ leBytes 8 index.toNat) ∧
  (∀ (s : State) (index : I64), s.context = none → exec (.setbit index) s =
    .next { s with responses := s.responses ++ [[2, 0, 0, 0]] }) ∧
  (∀ (s : State) (f : FilterContext) (index : I64), s.context = some f → Memory.wf f.bits = true →
    ∃ g, exec (.setbit index) s = .next { s with
        context := some g, responses := s.responses ++ [[0, 0, 0, 0]] } ∧
      g = { f with bits := g.bits } ∧
      (∀ a, memRead g a =
        if 0 ≤ index.toInt ∧ index.toInt.toNat / 8 < f.nbytes ∧ index.toInt.toNat / 8 = a
        then memRead f a ||| (1#8 <<< (index.toInt.toNat % 8)) else memRead f a) ∧
      (index.toInt < 0 ∨ f.nbytes ≤ index.toInt.toNat / 8 → g = f))

/-- R151, R153: GETBIT, opcode 0x31 in format X, answers NoFilter without a filter; with one OK and the
addressed bit, 0 out of range; nothing else changes. -/
def Obligations.GetbitAnswers : Prop :=
  (∀ index : I64, encode (.getbit index) = [0x31, 0, 0, 0] ++ leBytes 8 index.toNat) ∧
  (∀ (s : State) (index : I64), s.context = none → exec (.getbit index) s =
    .next { s with responses := s.responses ++ [[2, 0, 0, 0]] }) ∧
  (∀ (s : State) (f : FilterContext) (index : I64), s.context = some f →
    exec (.getbit index) s = .next { s with responses := s.responses ++ [[0, 0, 0, 0] ++ leBytes 4
      (if 0 ≤ index.toInt ∧ index.toInt.toNat / 8 < f.nbytes
       then ((memRead f (index.toInt.toNat / 8) >>> (index.toInt.toNat % 8)) &&& 1#8).toNat
       else 0)] })

/-- R154: RDBITS, opcode 0x32 in format Z, answers NoFilter without a filter; with one OK, NBYTES, and
the NBYTES bytes of BITS in ascending address; nothing else changes. -/
def Obligations.RdbitsAnswers : Prop :=
  encode .rdbits = [0x32, 0, 0, 0] ∧
  (∀ s : State, s.context = none → exec .rdbits s =
    .next { s with responses := s.responses ++ [[2, 0, 0, 0]] }) ∧
  (∀ (s : State) (f : FilterContext), s.context = some f →
    ∃ data : Packet, exec .rdbits s = .next { s with
        responses := s.responses ++ [[0, 0, 0, 0] ++ (leBytes 4 f.nbytes ++ data)] } ∧
      data.length = f.nbytes ∧ ∀ a, a < f.nbytes → data.getD a 0 = memRead f a)

/-- R58(a), R150, R151: after a SETBIT with an index in range, a GETBIT of that index answers 1, and a
GETBIT of any other index answers as it did before. -/
def Obligations.GetbitAfterSetbit : Prop :=
  ∀ (s : State) (f : FilterContext) (i j : I64), s.context = some f → Memory.wf f.bits = true →
    0 ≤ i.toInt → i.toInt.toNat / 8 < f.nbytes →
    ∃ t b, exec (.setbit i) s = .next t ∧
      exec (.getbit j) s = .next { s with responses := s.responses ++ [[0, 0, 0, 0] ++ b] } ∧
      exec (.getbit j) t = .next { t with responses :=
        t.responses ++ [[0, 0, 0, 0] ++ (if i = j then [1, 0, 0, 0] else b)] }

/-- R33, R27: no command but a construction turns a 1 into a 0 or drops the filter; SETBIT of a bit
that is set leaves the filter as it was. -/
def Obligations.BitsOnlyGrow : Prop :=
  (∀ (i : Instr) (s : State) (f : FilterContext), i.isConstruction = false → s.context = some f →
    Memory.wf f.bits = true → ∃ t g, exec i s = .next t ∧ t.context = some g ∧
      ∀ j : Int, isBitSet f j = true → isBitSet g j = true) ∧
  (∀ (s : State) (f : FilterContext) (index : I64), s.context = some f → Memory.wf f.bits = true →
    isBitSet f index.toInt = true → ∃ t, exec (.setbit index) s = .next t ∧ t.context = some f)

/-- R32: no command but a construction changes BITCOUNT, HASHCOUNT, SEED, TOL, ITEMCOUNT or NBYTES, and
none but SETBIT and ADD changes BITS. -/
def Obligations.ParametersAreImmutable : Prop :=
  ∀ (i : Instr) (s : State) (f : FilterContext), i.isConstruction = false → s.context = some f →
    ∃ t g, exec i s = .next t ∧ t.context = some g ∧ g = { f with bits := g.bits } ∧
      ((∀ index, i ≠ .setbit index) → (∀ item, i ≠ .add item) → g = f)

/-- R89 (column "writes state"), R10, R56: FNV1A, MURMUR3, INDICES, GETBIT, RDBITS, SIZE, CONTAINS and
RDPAR change nothing but the response channel, to which they add one packet. -/
def Obligations.ReadOnlyCommandsWriteNothing : Prop :=
  ∀ (i : Instr) (s : State), ruleReadOnly i = true →
    ∃ r, exec i s = .next { s with responses := s.responses ++ [r] }

/-- R121, R123, R141, R173: FNV1A, MURMUR3, INDICES and SIZE answer the same whether a filter is held
or not, and whichever it is. -/
def Obligations.UnitCommandsIgnoreTheContext : Prop :=
  ∀ (i : Instr) (s : State) (c : Option FilterContext),
    i.needsFilter = false → i.isConstruction = false →
    ∃ r, exec i s = .next { s with responses := s.responses ++ [r] } ∧
      exec i { s with context := c } =
        .next { s with context := c, responses := s.responses ++ [r] }

/-! ### SizingPolicy -/

/-- R192: the tolerance test passes exactly the patterns that are neither a NaN nor an infinity and
whose exact value lies strictly between 0 and 1. -/
def Obligations.ToleranceTestIsExact : Prop :=
  ∀ t : F64, toleranceOk t = true ↔ f64Exponent t ≠ 2047 ∧ 0 < f64Real t ∧ f64Real t < 1

/-- R170, R172, R174 under the default NUMERICS: the bit count is `max(1, ceil(-n * ln(p) / (ln 2)^2))`
over the exact reals, for every count and every tolerance that passes. -/
def Obligations.SizeBitsIsExact : Prop :=
  ∀ (c : Config) (n : Nat) (t : F64), c.numerics = .exact → 1 ≤ n → toleranceOk t = true →
    sizeBits c n t = max 1 ⌈-(n : ℝ) * Real.log ((f64Real t : ℚ) : ℝ) / Real.log 2 ^ 2⌉₊

/-- R171 under the default NUMERICS: the computed hash count is `max(1, ceil((m / n) * ln 2))` over
the exact reals, for all counts an I64 holds. -/
def Obligations.SizeHashesIsExact : Prop :=
  ∀ (c : Config) (m n : Nat), c.numerics = .exact → 1 ≤ m → m ≤ maxCount → 1 ≤ n → n ≤ maxCount →
    sizeHashes c m n = max 1 ⌈(m : ℝ) / n * Real.log 2⌉₊

/-- R175: for the same `n`, a smaller tolerance never gives a smaller bit count, under either NUMERICS
and whatever its free values are. -/
def Obligations.SizingIsMonotone : Prop :=
  ∀ (c : Config) (n : Nat) (t u : F64), 1 ≤ n → n ≤ maxCount → toleranceOk t = true →
    toleranceOk u = true → f64Real t ≤ f64Real u → sizeBits c n u ≤ sizeBits c n t

/-- R172, R173, R174: both results are at least 1, and the hash count is at most the bit count, under
either NUMERICS. (Under a substitute NUMERICS the last clause is the model's choice, log entry 5: R174
does not ask it of a substitute.) -/
def Obligations.SizesAreAtLeastOne : Prop :=
  ∀ (c : Config) (n m : Nat) (t : F64), 1 ≤ n → 1 ≤ m →
    1 ≤ sizeBits c n t ∧ 1 ≤ sizeHashes c m n ∧ sizeHashes c m n ≤ m

/-- R173: SIZE, opcode 0x40 in format S. With a tolerance that passes, `n > 0` and a bit count that fits
it answers OK and the two counts; a bad tolerance or count is answered InvalidParameter, a bit count
above 2^63 - 1 Unrepresentable; nothing else changes. -/
def Obligations.SizeAnswers : Prop :=
  (∀ (n : I64) (tol : F64),
    encode (.size n tol) = [0x40, 0, 0, 0] ++ (leBytes 8 n.toNat ++ leBytes 8 tol.toNat)) ∧
  (∀ (s : State) (n : I64) (tol : F64), toleranceOk tol = false ∨ n.toInt ≤ 0 →
    exec (.size n tol) s = .next { s with responses := s.responses ++ [[1, 0, 0, 0]] }) ∧
  (∀ (s : State) (n : I64) (tol : F64), toleranceOk tol = true → 0 < n.toInt →
    maxCount < sizeBits s.config n.toInt.toNat tol →
    exec (.size n tol) s = .next { s with responses := s.responses ++ [[4, 0, 0, 0]] }) ∧
  (∀ (s : State) (n : I64) (tol : F64), toleranceOk tol = true → 0 < n.toInt →
    sizeBits s.config n.toInt.toNat tol ≤ maxCount →
    exec (.size n tol) s = .next { s with responses := s.responses ++ [[0, 0, 0, 0] ++
      (leBytes 8 (sizeBits s.config n.toInt.toNat tol) ++
       leBytes 8 (sizeHashes s.config (sizeBits s.config n.toInt.toNat tol) n.toInt.toNat))] })

/-! ### Filter -/

/-- R186: NEWSZ, opcode 0x50 in format N. With operands that pass, a bit count that fits and a buffer
within MAXBYTES it holds an empty filter of the sizes the SizingPolicy gives and answers them; a bad
tolerance or count is answered InvalidParameter, a bit count above 2^63 - 1 Unrepresentable, a buffer
above MAXBYTES CapacityExceeded; nothing else changes. -/
def Obligations.NewszAnswers : Prop :=
  (∀ (n : I64) (tol : F64) (seed : U32), encode (.newsz n tol seed) =
    [0x50, 0, 0, 0] ++ (leBytes 8 n.toNat ++ (leBytes 8 tol.toNat ++ leBytes 4 seed.toNat))) ∧
  (∀ (s : State) (n : I64) (tol : F64) (seed : U32), toleranceOk tol = false ∨ n.toInt ≤ 0 →
    exec (.newsz n tol seed) s = .next { s with responses := s.responses ++ [[1, 0, 0, 0]] }) ∧
  (∀ (s : State) (n : I64) (tol : F64) (seed : U32) (m : Nat), toleranceOk tol = true →
    0 < n.toInt → m = sizeBits s.config n.toInt.toNat tol →
    (maxCount < m → exec (.newsz n tol seed) s =
      .next { s with responses := s.responses ++ [[4, 0, 0, 0]] }) ∧
    (m ≤ maxCount → s.config.maxBytes < (m + 7) / 8 → exec (.newsz n tol seed) s =
      .next { s with responses := s.responses ++ [[3, 0, 0, 0]] })) ∧
  (∀ (s : State) (n : I64) (tol : F64) (seed : U32) (m k : Nat), toleranceOk tol = true →
    0 < n.toInt → m = sizeBits s.config n.toInt.toNat tol →
    k = sizeHashes s.config m n.toInt.toNat → m ≤ maxCount → (m + 7) / 8 ≤ s.config.maxBytes →
    ∃ g : FilterContext, exec (.newsz n tol seed) s = .next { s with
        context := some g,
        responses := s.responses ++ [[0, 0, 0, 0] ++ (leBytes 8 m ++ leBytes 8 k)] } ∧
      g.bitCount = m ∧ g.hashCount = k ∧ g.seed = seed ∧ g.tol = tol ∧
      g.itemCount = n.toInt.toNat ∧ g.nbytes = (m + 7) / 8 ∧ Memory.wf g.bits = true ∧
      Memory.below g.nbytes g.bits = true ∧ ∀ a, a < g.nbytes → memRead g a = 0)

/-- R187: NEWEX, opcode 0x51 in format E. With operands that pass and a buffer within MAXBYTES it holds
an empty filter of the given counts and answers OK; a bad operand is answered InvalidParameter, a
buffer above MAXBYTES CapacityExceeded; nothing else changes. -/
def Obligations.NewexAnswers : Prop :=
  (∀ (bitCount hashCount itemCount : I64) (tol : F64) (seed : U32),
    encode (.newex bitCount hashCount itemCount tol seed) = [0x51, 0, 0, 0] ++
      (leBytes 8 bitCount.toNat ++ (leBytes 8 hashCount.toNat ++ (leBytes 8 itemCount.toNat ++
        (leBytes 8 tol.toNat ++ leBytes 4 seed.toNat))))) ∧
  (∀ (s : State) (bitCount hashCount itemCount : I64) (tol : F64) (seed : U32),
    toleranceOk tol = false ∨ bitCount.toInt ≤ 0 ∨ hashCount.toInt ≤ 0 ∨ itemCount.toInt < 0 →
    exec (.newex bitCount hashCount itemCount tol seed) s =
      .next { s with responses := s.responses ++ [[1, 0, 0, 0]] }) ∧
  (∀ (s : State) (bitCount hashCount itemCount : I64) (tol : F64) (seed : U32),
    toleranceOk tol = true → 0 < bitCount.toInt → 0 < hashCount.toInt → 0 ≤ itemCount.toInt →
    s.config.maxBytes < (bitCount.toInt.toNat + 7) / 8 →
    exec (.newex bitCount hashCount itemCount tol seed) s =
      .next { s with responses := s.responses ++ [[3, 0, 0, 0]] }) ∧
  (∀ (s : State) (bitCount hashCount itemCount : I64) (tol : F64) (seed : U32),
    toleranceOk tol = true → 0 < bitCount.toInt → 0 < hashCount.toInt → 0 ≤ itemCount.toInt →
    (bitCount.toInt.toNat + 7) / 8 ≤ s.config.maxBytes →
    ∃ g : FilterContext, exec (.newex bitCount hashCount itemCount tol seed) s = .next { s with
        context := some g, responses := s.responses ++ [[0, 0, 0, 0]] } ∧
      g.bitCount = bitCount.toInt.toNat ∧ g.hashCount = hashCount.toInt.toNat ∧ g.seed = seed ∧
      g.tol = tol ∧ g.itemCount = itemCount.toInt.toNat ∧
      g.nbytes = (bitCount.toInt.toNat + 7) / 8 ∧ Memory.wf g.bits = true ∧
      Memory.below g.nbytes g.bits = true ∧ ∀ a, a < g.nbytes → memRead g a = 0)

/-- R188: LOAD, opcode 0x52 in format L. With a non-empty buffer within MAXBYTES and operands that pass
it holds a filter with the given parameters and exactly the given bytes, whatever their number, and
answers MISMATCH; an empty buffer or a bad operand is answered InvalidParameter, a buffer above
MAXBYTES CapacityExceeded; nothing else changes. (The rule marks the tests other than the empty buffer
as "the spec's choice, D17"; log entry 11.) -/
def Obligations.LoadAnswers : Prop :=
  (∀ (bitCount hashCount itemCount : I64) (tol : F64) (seed : U32) (bytes : Packet),
    encode (.load bitCount hashCount itemCount tol seed bytes) = [0x52, 0, 0, 0] ++
      (leBytes 8 bitCount.toNat ++ (leBytes 8 hashCount.toNat ++ (leBytes 8 itemCount.toNat ++
        (leBytes 8 tol.toNat ++ (leBytes 4 seed.toNat ++ (leBytes 4 bytes.length ++ bytes))))))) ∧
  (∀ (s : State) (bitCount hashCount itemCount : I64) (tol : F64) (seed : U32) (bytes : Packet),
    bytes = [] ∨ toleranceOk tol = false ∨ bitCount.toInt ≤ 0 ∨ hashCount.toInt ≤ 0 ∨
      itemCount.toInt < 0 →
    exec (.load bitCount hashCount itemCount tol seed bytes) s =
      .next { s with responses := s.responses ++ [[1, 0, 0, 0]] }) ∧
  (∀ (s : State) (bitCount hashCount itemCount : I64) (tol : F64) (seed : U32) (bytes : Packet),
    bytes ≠ [] → toleranceOk tol = true → 0 < bitCount.toInt → 0 < hashCount.toInt →
    0 ≤ itemCount.toInt → s.config.maxBytes < bytes.length →
    exec (.load bitCount hashCount itemCount tol seed bytes) s =
      .next { s with responses := s.responses ++ [[3, 0, 0, 0]] }) ∧
  (∀ (s : State) (bitCount hashCount itemCount : I64) (tol : F64) (seed : U32) (bytes : Packet),
    bytes ≠ [] → toleranceOk tol = true → 0 < bitCount.toInt → 0 < hashCount.toInt →
    0 ≤ itemCount.toInt → bytes.length ≤ s.config.maxBytes →
    ∃ g : FilterContext, exec (.load bitCount hashCount itemCount tol seed bytes) s = .next { s with
        context := some g,
        responses := s.responses ++ [[0, 0, 0, 0] ++
          (if bytes.length = (bitCount.toInt.toNat + 7) / 8 then [0, 0, 0, 0] else [1, 0, 0, 0])] } ∧
      g.bitCount = bitCount.toInt.toNat ∧ g.hashCount = hashCount.toInt.toNat ∧ g.seed = seed ∧
      g.tol = tol ∧ g.itemCount = itemCount.toInt.toNat ∧ g.nbytes = bytes.length ∧
      Memory.wf g.bits = true ∧ Memory.below g.nbytes g.bits = true ∧
      ∀ a, a < bytes.length → memRead g a = bytes.getD a 0)

/-- R185: a construction is answered alike whatever was held. Answered OK, it leaves a filter that does
not depend on what was held before; with any other status it leaves the filter that was held. -/
def Obligations.ConstructionReplacesTheFilter : Prop :=
  ∀ (i : Instr) (s : State) (c : Option FilterContext), i.isConstruction = true →
    ∃ t u r, exec i s = .next t ∧ exec i { s with context := c } = .next u ∧
      t.responses = s.responses ++ [r] ∧ u.responses = s.responses ++ [r] ∧
      (statusWord r = 0 → t.valid = true ∧ t.context = u.context) ∧
      (statusWord r ≠ 0 → t.context = s.context ∧ u.context = c)

/-- R189 (bit order R51): ADD, opcode 0x53 in format B, answers NoFilter without a filter. With one it
answers OK; afterwards a bit is set exactly when it was set before or is a derived index in range; the
parameters and the rest of the state are as they were. -/
def Obligations.AddAnswers : Prop :=
  (∀ item : Packet, encode (.add item) = [0x53, 0, 0, 0] ++ (leBytes 4 item.length ++ item)) ∧
  (∀ (s : State) (item : Packet), s.context = none → exec (.add item) s =
    .next { s with responses := s.responses ++ [[2, 0, 0, 0]] }) ∧
  (∀ (s : State) (f : FilterContext) (item : Packet), s.context = some f →
    Memory.wf f.bits = true →
    ∃ g, exec (.add item) s = .next { s with
        context := some g, responses := s.responses ++ [[0, 0, 0, 0]] } ∧
      g = { f with bits := g.bits } ∧ Memory.wf g.bits = true ∧
      (∀ j : Nat, isBitSet g (j : Int) = true ↔ isBitSet f (j : Int) = true ∨
        (j / 8 < f.nbytes ∧ j ∈ indices item f.hashCount f.bitCount f.seed)) ∧
      (∀ a, (∀ i ∈ indices item f.hashCount f.bitCount f.seed, i / 8 ≠ a) →
        memRead g a = memRead f a))

/-- R190: CONTAINS, opcode 0x54 in format B, answers NoFilter without a filter; with one OK and 1 when
every derived index is in range and set, 0 otherwise; nothing else changes. -/
def Obligations.ContainsAnswers : Prop :=
  (∀ item : Packet, encode (.contains item) = [0x54, 0, 0, 0] ++ (leBytes 4 item.length ++ item)) ∧
  (∀ (s : State) (item : Packet), s.context = none → exec (.contains item) s =
    .next { s with responses := s.responses ++ [[2, 0, 0, 0]] }) ∧
  (∀ (s : State) (f : FilterContext) (item : Packet), s.context = some f →
    ((∀ i ∈ indices item f.hashCount f.bitCount f.seed,
        i / 8 < f.nbytes ∧ (memRead f (i / 8)).getLsbD (i % 8) = true) →
      exec (.contains item) s =
        .next { s with responses := s.responses ++ [[0, 0, 0, 0, 1, 0, 0, 0]] }) ∧
    ((∃ i ∈ indices item f.hashCount f.bitCount f.seed,
        ¬ (i / 8 < f.nbytes ∧ (memRead f (i / 8)).getLsbD (i % 8) = true)) →
      exec (.contains item) s =
        .next { s with responses := s.responses ++ [[0, 0, 0, 0, 0, 0, 0, 0]] }))

/-- R191: RDPAR, opcode 0x55 in format Z, answers NoFilter without a filter; with one OK and the six
parameters; nothing else changes. -/
def Obligations.RdparAnswers : Prop :=
  encode .rdpar = [0x55, 0, 0, 0] ∧
  (∀ s : State, s.context = none → exec .rdpar s =
    .next { s with responses := s.responses ++ [[2, 0, 0, 0]] }) ∧
  (∀ (s : State) (f : FilterContext), s.context = some f →
    exec .rdpar s = .next { s with responses := s.responses ++ [[0, 0, 0, 0] ++
      leBytes 8 f.bitCount ++ leBytes 8 f.hashCount ++ leBytes 8 f.itemCount ++
      leBytes 8 f.tol.toNat ++ leBytes 4 f.seed.toNat ++ leBytes 4 f.nbytes] })

/-- R194: where every index derived for an item is in range, the item, once added, answers 1
immediately after and after any further commands that are no constructions; and in a filter with
`8 * NBYTES >= BITCOUNT` every derived index is in range, so this holds there of every item. -/
def Obligations.NoFalseNegatives : Prop :=
  (∀ (s : State) (f : FilterContext) (item : Packet) (is : List Instr), s.context = some f →
    Memory.wf f.bits = true →
    (∀ i ∈ indices item f.hashCount f.bitCount f.seed, i / 8 < f.nbytes) →
    (∀ i ∈ is, i.isConstruction = false) →
    ∃ t, execAll (.add item :: is) s = .next t ∧ exec (.contains item) t =
      .next { t with responses := t.responses ++ [[0, 0, 0, 0, 1, 0, 0, 0]] }) ∧
  (∀ (s : State) (f : FilterContext) (item : Packet) (is : List Instr), s.context = some f →
    Memory.wf f.bits = true → 1 ≤ f.bitCount → f.covers = true →
    (∀ i ∈ is, i.isConstruction = false) →
    ∃ t, execAll (.add item :: is) s = .next t ∧ exec (.contains item) t =
      .next { t with responses := t.responses ++ [[0, 0, 0, 0, 1, 0, 0, 0]] })

/-- R195: adding an item twice leaves the same filter as adding it once. -/
def Obligations.AddIsIdempotent : Prop :=
  ∀ (s : State) (f : FilterContext) (item : Packet), s.context = some f →
    Memory.wf f.bits = true → Memory.below f.nbytes f.bits = true →
    ∃ t u, exec (.add item) s = .next t ∧ execAll [.add item, .add item] s = .next u ∧
      t.context = u.context

/-- R196: after a sequence of ADDs a bit is set exactly when it was set before or one of the ADDs alone
sets it, and the order of the items does not matter to the final state. -/
def Obligations.AddOrderDoesNotMatter : Prop :=
  (∀ (s : State) (f : FilterContext) (items : List Packet), s.context = some f →
    Memory.wf f.bits = true →
    ∃ t g, execAll (items.map .add) s = .next t ∧ t.context = some g ∧
      ∀ j : Nat, isBitSet g (j : Int) = true ↔ isBitSet f (j : Int) = true ∨
        (j / 8 < f.nbytes ∧ ∃ x ∈ items, j ∈ indices x f.hashCount f.bitCount f.seed)) ∧
  (∀ (s : State) (f : FilterContext) (xs ys : List Packet), s.context = some f →
    Memory.wf f.bits = true → Memory.below f.nbytes f.bits = true → xs.Perm ys →
    ∃ t, execAll (xs.map .add) s = .next t ∧ execAll (ys.map .add) s = .next t)

/-- R198: the fields of the responses of RDPAR and RDBITS, given to LOAD on any CORE with enough
memory, give exactly the same filter, so every later command answers as it would have; MISMATCH is 0
when NBYTES is `ceil(BITCOUNT / 8)`. -/
def Obligations.SaveAndLoadGiveTheSameFilter : Prop :=
  ∀ (s u : State) (f : FilterContext), s.wf = true → s.context = some f →
    f.nbytes ≤ u.config.maxBytes →
    ∃ p b, exec .rdpar s = .next { s with responses := s.responses ++ [p] } ∧
      exec .rdbits s = .next { s with responses := s.responses ++ [b] } ∧
      (Instr.load (i64At p 4) (i64At p 12) (i64At p 20) (f64At p 28) (u32At p 36)
        (b.drop 8)).wellFormed = true ∧
      exec (.load (i64At p 4) (i64At p 12) (i64At p 20) (f64At p 28) (u32At p 36) (b.drop 8)) u =
        .next { u with context := some f, responses := u.responses ++ [[0, 0, 0, 0] ++
          (if f.nbytes = (f.bitCount + 7) / 8 then [0, 0, 0, 0] else [1, 0, 0, 0])] }

/-- R63 (its coding of a rest of one or two bytes is log entry 17): decoding what base64 coded gives the
bytes back, for every byte sequence, and the rule's example comes out. -/
def Obligations.Base64RoundTrip : Prop :=
  (∀ p : Packet, base64Decode (base64Encode p) = some p) ∧
  base64Encode [0x2a, 0x71, 0x67, 0xcf, 0xbf, 0xdd, 0x50, 0x3c, 0x8a, 0xe7, 0x51, 0xea, 0x96, 0x14,
    0xe5, 0xb3, 0x06, 0xaf] = "KnFnz7/dUDyK51HqlhTlswav".toList

/-- R37, R61, R62: the container a host writes from the responses of RDPAR and RDBITS restores, by the
LOAD it asks for, exactly the filter that was held, on any CORE with enough memory. -/
def Obligations.ContainerRestoresTheFilter : Prop :=
  ∀ (s u : State) (f : FilterContext), s.wf = true → s.context = some f →
    f.nbytes ≤ u.config.maxBytes →
    ∃ p b i t, exec .rdpar s = .next { s with responses := s.responses ++ [p] } ∧
      exec .rdbits s = .next { s with responses := s.responses ++ [b] } ∧
      restoreCommand (saveContainer p b) = some i ∧ exec i u = .next t ∧
      t = { u with context := some f, responses := t.responses }

/-- R193, R93(b), R263: BUILD of a non-empty list, where its NEWSZ succeeds, ends with a filter of the
sizes, the seed and the tolerance asked for that counts every item written, has exactly the derived
bits of the items set, and answers 1 for each of them. Where its NEWSZ fails, that one answer is all
that happens and no ADD is sent: InvalidParameter for a bad tolerance or no item, Unrepresentable for a
bit count above 2^63 - 1, CapacityExceeded for a buffer above MAXBYTES. (A list is no longer than an
I64 count can say.) -/
def Obligations.BuildHoldsItsItems : Prop :=
  (∀ (s : State) (tol : F64) (seed : U32) (items : List Packet), toleranceOk tol = true →
    items ≠ [] → items.length ≤ maxCount →
    sizeBits s.config items.length tol ≤ maxCount →
    (sizeBits s.config items.length tol + 7) / 8 ≤ s.config.maxBytes →
    ∃ t g, runExpansion (build tol seed items) s = .next t ∧ t.context = some g ∧
      g.itemCount = items.length ∧ g.bitCount = sizeBits s.config items.length tol ∧
      g.hashCount = sizeHashes s.config g.bitCount items.length ∧ g.seed = seed ∧ g.tol = tol ∧
      g.nbytes = (g.bitCount + 7) / 8 ∧
      (∀ j : Nat, isBitSet g (j : Int) = true ↔
        ∃ x ∈ items, j ∈ indices x g.hashCount g.bitCount g.seed) ∧
      ∀ x ∈ items, exec (.contains x) t =
        .next { t with responses := t.responses ++ [[0, 0, 0, 0, 1, 0, 0, 0]] }) ∧
  (∀ (s : State) (tol : F64) (seed : U32) (items : List Packet),
    toleranceOk tol = false ∨ items = [] →
    runExpansion (build tol seed items) s =
      .next { s with responses := s.responses ++ [[1, 0, 0, 0]] }) ∧
  (∀ (s : State) (tol : F64) (seed : U32) (items : List Packet), toleranceOk tol = true →
    items ≠ [] → items.length ≤ maxCount →
    (maxCount < sizeBits s.config items.length tol →
      runExpansion (build tol seed items) s =
        .next { s with responses := s.responses ++ [[4, 0, 0, 0]] }) ∧
    (sizeBits s.config items.length tol ≤ maxCount →
      s.config.maxBytes < (sizeBits s.config items.length tol + 7) / 8 →
      runExpansion (build tol seed items) s =
        .next { s with responses := s.responses ++ [[3, 0, 0, 0]] }))

/-- R264: where a derived index of an item lies outside a short buffer, CONTAINS answers 0 immediately
after ADD answered OK. -/
def Obligations.ShortBufferLosesItems : Prop :=
  ∀ (s : State) (f : FilterContext) (item : Packet), s.context = some f →
    (∃ i ∈ filterIndices f item, f.nbytes ≤ i / 8) →
    ∃ t, exec (.add item) s = .next t ∧ t.responses = s.responses ++ [[0, 0, 0, 0]] ∧
      exec (.contains item) t =
        .next { t with responses := t.responses ++ [[0, 0, 0, 0, 0, 0, 0, 0]] }

/-- R190 (corner cases): in a filter whose bytes are all 0x00 every item answers 0, and in one whose
bytes are all 0xff and whose buffer covers every derived index every item answers 1. -/
def Obligations.EmptyAndFullFilters : Prop :=
  ∀ (s : State) (f : FilterContext) (item : Packet), s.context = some f → 1 ≤ f.bitCount →
    1 ≤ f.hashCount →
    ((∀ a, a < f.nbytes → memRead f a = 0x00) → exec (.contains item) s =
      .next { s with responses := s.responses ++ [[0, 0, 0, 0, 0, 0, 0, 0]] }) ∧
    ((∀ a, a < f.nbytes → memRead f a = 0xff) → f.covers = true → exec (.contains item) s =
      .next { s with responses := s.responses ++ [[0, 0, 0, 0, 1, 0, 0, 0]] })

/-- R57, R142: ADD never touches a padding bit or an extra byte: bits from BITCOUNT on are as they
were. -/
def Obligations.AddLeavesPaddingAlone : Prop :=
  ∀ (s : State) (f : FilterContext) (item : Packet), s.context = some f →
    Memory.wf f.bits = true → 1 ≤ f.bitCount →
    ∃ t g, exec (.add item) s = .next t ∧ t.context = some g ∧
      ∀ j : Nat, f.bitCount ≤ j → isBitSet g (j : Int) = isBitSet f (j : Int)

/-- R24, R25: TOL and ITEMCOUNT are for reporting only: two filters that differ in nothing else give
the same responses and the same bits under every command but RDPAR. -/
def Obligations.ReportingRegistersAreInert : Prop :=
  ∀ (i : Instr) (s : State) (f : FilterContext) (tol : F64) (itemCount : Nat),
    i ≠ .rdpar → i.isConstruction = false →
    ∃ r g, exec i { s with context := some f } =
        .next { s with context := some g, responses := s.responses ++ [r] } ∧
      exec i { s with context := some { f with tol := tol, itemCount := itemCount } } =
        .next { s with context := some { g with tol := tol, itemCount := itemCount },
                       responses := s.responses ++ [r] }

/-! ### Invariants -/

/-- R20, R26, R50, R86, R87: every step keeps a legal state legal: the parameters, the registers'
ranges, the tolerance, NBYTES within MAXBYTES, the canonical memory inside the buffer, and legal
responses only. -/
def Obligations.StepKeepsStatesLegal : Prop :=
  ∀ s t : State, s.wf = true → step s = .next t → t.wf = true

/-- R35, R260 (MAXBYTES and NUMERICS at reset are the model's choice, log entries 4 and 5): the state
after reset is legal, has VALID = 0, empty channels and the reset input released. -/
def Obligations.ResetStateIsLegal : Prop :=
  State.reset.wf = true ∧ State.reset.valid = false ∧ State.reset.commands = [] ∧
    State.reset.responses = [] ∧ State.reset.resetIn = false

/-- R8, R20, R80, R260: every state that steps of the CORE and moves of the host reach from reset is
legal and keeps its parameters, and every step from it answers a next state. -/
def Obligations.ReachableStatesAreLegal : Prop :=
  ∀ (c : Config) (s : State), c.wf = true → Reachable c s →
    s.wf = true ∧ s.config = c ∧ ∃ t, step s = .next t

/-- R26, R34: in a filter made by NEWSZ or NEWEX the buffer has `ceil(BITCOUNT / 8)` bytes, and this
holds on after any commands that are no constructions. -/
def Obligations.FreshBuffersStayExact : Prop :=
  ∀ (s t : State) (i : Instr) (is : List Instr) (f : FilterContext),
    (∃ n tol seed, i = .newsz n tol seed) ∨
      (∃ bitCount hashCount itemCount tol seed, i = .newex bitCount hashCount itemCount tol seed) →
    s.context = none → (∀ j ∈ is, j.isConstruction = false) →
    execAll (i :: is) s = .next t → t.context = some f → f.nbytes = (f.bitCount + 7) / 8
end

