-- ==== Sys2Proof/Laws/Bytes.lean ====
section
/-! SUPPORT. Little-endian fields: length, bounds, and that reading bytes back gives the number. -/

namespace Sys2Proof

@[simp] theorem leBytes_length (k v : Nat) : (leBytes k v).length = k := by
  induction k generalizing v with
  | zero => rfl
  | succ k ih => simp [leBytes, ih]

theorem leNat_lt (p : Packet) : leNat p < 256 ^ p.length := by
  induction p with
  | nil => simp [leNat]
  | cons b bs ih =>
    have hb := b.isLt
    simp only [leNat, List.length_cons, pow_succ]
    omega

theorem leNat_leBytes (k v : Nat) : leNat (leBytes k v) = v % 256 ^ k := by
  induction k generalizing v with
  | zero => simp [leBytes, leNat, Nat.mod_one]
  | succ k ih =>
    have h8 : (BitVec.ofNat 8 v).toNat = v % 256 := BitVec.toNat_ofNat v 8
    rw [leBytes, leNat, ih, h8, pow_succ, Nat.mul_comm (256 ^ k) 256, Nat.mod_mul]

theorem leBytes_leNat (p : Packet) : leBytes p.length (leNat p) = p := by
  induction p with
  | nil => rfl
  | cons b bs ih =>
    have hb := b.isLt
    have h1 : BitVec.ofNat 8 (b.toNat + 256 * leNat bs) = b := by
      apply BitVec.eq_of_toNat_eq
      rw [BitVec.toNat_ofNat]
      omega
    have h2 : (b.toNat + 256 * leNat bs) / 256 = leNat bs := by omega
    simp only [List.length_cons, leBytes, leNat, h1, h2, ih]

@[simp] theorem u32Bytes_length (v : U32) : (u32Bytes v).length = 4 := leBytes_length _ _
@[simp] theorem i64Bytes_length (v : I64) : (i64Bytes v).length = 8 := leBytes_length _ _
@[simp] theorem f64Bytes_length (v : F64) : (f64Bytes v).length = 8 := leBytes_length _ _
@[simp] theorem dataBytes_length (d : Packet) : (dataBytes d).length = 4 + d.length := by
  simp [dataBytes]

/-- What a U32 field reads depends on its own four bytes only. -/
theorem u32At_append (pre post : Packet) (v : U32) :
    u32At (pre ++ (u32Bytes v ++ post)) pre.length = v := by
  unfold u32At u32Bytes
  rw [List.drop_left, List.take_left' (leBytes_length 4 v.toNat), leNat_leBytes]
  apply BitVec.eq_of_toNat_eq
  have := v.isLt
  rw [BitVec.toNat_ofNat]
  omega

/-- What an I64 field reads depends on its own eight bytes only. -/
theorem i64At_append (pre post : Packet) (v : I64) :
    i64At (pre ++ (i64Bytes v ++ post)) pre.length = v := by
  unfold i64At i64Bytes
  rw [List.drop_left, List.take_left' (leBytes_length 8 v.toNat), leNat_leBytes]
  apply BitVec.eq_of_toNat_eq
  have := v.isLt
  rw [BitVec.toNat_ofNat]
  omega

/-- What an F64 field reads depends on its own eight bytes only. -/
theorem f64At_append (pre post : Packet) (v : F64) :
    f64At (pre ++ (f64Bytes v ++ post)) pre.length = v := i64At_append pre post v

/-- The bytes of a U32 field, from what reading it gives. -/
theorem u32Bytes_u32At (p : Packet) (off : Nat) (h : off + 4 ≤ p.length) :
    u32Bytes (u32At p off) = (p.drop off).take 4 := by
  have hl : ((p.drop off).take 4).length = 4 := by
    rw [List.length_take, List.length_drop]
    omega
  have hlt := leNat_lt ((p.drop off).take 4)
  rw [hl] at hlt
  have hv : (u32At p off).toNat = leNat ((p.drop off).take 4) := by
    unfold u32At
    rw [BitVec.toNat_ofNat]
    omega
  have hb := leBytes_leNat ((p.drop off).take 4)
  rw [hl] at hb
  rw [u32Bytes, hv, hb]

/-- The bytes of an I64 field, from what reading it gives. -/
theorem i64Bytes_i64At (p : Packet) (off : Nat) (h : off + 8 ≤ p.length) :
    i64Bytes (i64At p off) = (p.drop off).take 8 := by
  have hl : ((p.drop off).take 8).length = 8 := by
    rw [List.length_take, List.length_drop]
    omega
  have hlt := leNat_lt ((p.drop off).take 8)
  rw [hl] at hlt
  have hv : (i64At p off).toNat = leNat ((p.drop off).take 8) := by
    unfold i64At
    rw [BitVec.toNat_ofNat]
    omega
  have hb := leBytes_leNat ((p.drop off).take 8)
  rw [hl] at hb
  rw [i64Bytes, hv, hb]

/-- The bytes of an F64 field, from what reading it gives. -/
theorem f64Bytes_f64At (p : Packet) (off : Nat) (h : off + 8 ≤ p.length) :
    f64Bytes (f64At p off) = (p.drop off).take 8 := i64Bytes_i64At p off h

end Sys2Proof
end

