-- ==== Sys2Proof/Laws/Decode.lean ====
section
/-! SUPPORT. What the decoder does with a packet that has a header word, and where the fields of an
encoded command are read. -/

namespace Sys2Proof

/-- The header word of a packet that starts with a byte and three zero bytes. -/
theorem u32At_header (o : Byte) (rest : Packet) :
    u32At (o :: 0 :: 0 :: 0 :: rest) 0 = o.setWidth 32 := by
  apply BitVec.eq_of_toNat_eq
  simp [u32At, leNat]

/-- R85 for a well-formed header: with an assigned opcode and the length the format asks for, the
operands are read at their offsets. -/
theorem decode_of_header (o : Byte) (rest : Packet) (f : Format) (rd : Packet → Instr)
    (hrow : opcodeRow o.toNat = some (f, rd))
    (hlen : (o :: 0 :: 0 :: 0 :: rest).length = packetLength f (o :: 0 :: 0 :: 0 :: rest)) :
    decode (o :: 0 :: 0 :: 0 :: rest) = .ok (rd (o :: 0 :: 0 :: 0 :: rest)) := by
  have h1 : BitVec.extractLsb' 8 24 (BitVec.setWidth 32 o) = 0#24 := by
    apply BitVec.eq_of_toNat_eq
    simp
    have := o.isLt
    omega
  have h2 : BitVec.extractLsb' 0 8 (BitVec.setWidth 32 o) = o := by
    apply BitVec.eq_of_toNat_eq
    simp
    exact o.isLt
  have h3 : f.fixed ≤ packetLength f (o :: 0 :: 0 :: 0 :: rest) := by
    unfold packetLength
    split <;> omega
  unfold decode
  rw [u32At_header, h1, h2, hrow, if_neg (by simp), if_neg (by simp)]
  dsimp only
  rw [if_neg (by omega), if_neg (by omega)]

/-- The same for the packet of a command. -/
theorem decode_encode_of {i : Instr} {f : Format} {rd : Packet → Instr}
    (hrow : opcodeRow i.opcode.toNat = some (f, rd))
    (hlen : (encode i).length = packetLength f (encode i)) :
    decode (encode i) = .ok (rd (encode i)) := decode_of_header _ _ f rd hrow hlen

/-- The LEN field of a payload that fits reads as the payload's length. -/
theorem len_at (pre d : Packet) (h : d.length < 4294967296) (k : Nat) (hk : k = pre.length) :
    (u32At (pre ++ dataBytes d) k).toNat = d.length := by
  subst hk
  have hm : (BitVec.ofNat 32 d.length).toNat = d.length := by
    rw [BitVec.toNat_ofNat, Nat.mod_eq_of_lt (by omega)]
  have e : dataBytes d = u32Bytes (BitVec.ofNat 32 d.length) ++ d := by
    rw [dataBytes, u32Bytes, hm]
  rw [e, u32At_append, hm]

/-- The payload of a command is what follows its LEN field. -/
theorem data_at (pre d : Packet) (k : Nat) (hk : k = pre.length + 4) :
    (pre ++ dataBytes d).drop k = d := by
  subst hk
  rw [List.drop_append]
  simp [dataBytes]

end Sys2Proof
end

