-- ==== Sys2Proof/Laws/Memory.lean ====
section
/-! SUPPORT. The bit memory as data: read after write, the canonical form is kept by every memory
operation, and equal reads of canonical memories are equal data. -/

namespace Sys2Proof.Machine

/-! ### `Memory.cons` -/

theorem Memory.read_cons (a b : Nat) (v : Byte) (m : List Host.Cell)
    (h : Memory.read m a = 0#8) :
    Memory.read (Memory.cons a v m) b = if a = b then v else Memory.read m b := by
  unfold Memory.cons
  by_cases hv : v = 0#8
  · subst hv
    by_cases hab : a = b
    · subst hab
      simp [h]
    · simp [hab]
  · simp [hv, Memory.read]

theorem Memory.wfFrom_mono {lo lo' : Nat} {m : List Host.Cell} (hlo : lo ≤ lo')
    (h : Memory.wfFrom lo' m = true) : Memory.wfFrom lo m = true := by
  cases m with
  | nil => rfl
  | cons c rest =>
    simp only [Memory.wfFrom, Bool.and_eq_true, decide_eq_true_eq] at h ⊢
    exact ⟨⟨by omega, h.1.2⟩, h.2⟩

theorem Memory.wfFrom_cons {lo a : Nat} {v : Byte} {m : List Host.Cell} (hlo : lo ≤ a)
    (h : Memory.wfFrom (a + 1) m = true) : Memory.wfFrom lo (Memory.cons a v m) = true := by
  unfold Memory.cons
  by_cases hv : v = 0#8
  · simp only [hv, if_true]
    exact Memory.wfFrom_mono (by omega) h
  · simp [hv, Memory.wfFrom, hlo, h]

theorem Memory.below_cons {n a : Nat} {v : Byte} {m : List Host.Cell} (ha : a < n)
    (h : Memory.below n m = true) : Memory.below n (Memory.cons a v m) = true := by
  unfold Memory.cons
  by_cases hv : v = 0#8
  · simpa [hv] using h
  · simpa [hv, Memory.below, ha] using h

/-! ### Reads of a canonical memory -/

/-- Below the first address a canonical memory lists, everything reads 0x00. -/
theorem Memory.read_below {lo a : Nat} {m : List Host.Cell} (h : Memory.wfFrom lo m = true)
    (ha : a < lo) : Memory.read m a = 0#8 := by
  induction m generalizing lo with
  | nil => rfl
  | cons c rest ih =>
    simp only [Memory.wfFrom, Bool.and_eq_true, decide_eq_true_eq] at h
    have hne : c.1 ≠ a := by omega
    simp only [Memory.read, hne, if_false]
    exact ih h.2 (by omega)

/-- Nothing is listed at or above a bound that holds for all listed addresses. -/
theorem Memory.read_above {n a : Nat} {m : List Host.Cell} (h : Memory.below n m = true)
    (ha : n ≤ a) : Memory.read m a = 0#8 := by
  induction m with
  | nil => rfl
  | cons c rest ih =>
    simp only [Memory.below, List.all_cons, Bool.and_eq_true, decide_eq_true_eq] at h
    have hne : c.1 ≠ a := by omega
    simp only [Memory.read, hne, if_false]
    exact ih h.2

/-- Two canonical memories that read alike are equal data. -/
theorem Memory.ext_of_read {lo : Nat} {m m' : List Host.Cell} (h : Memory.wfFrom lo m = true)
    (h' : Memory.wfFrom lo m' = true) (he : ∀ a, Memory.read m a = Memory.read m' a) : m = m' := by
  induction m generalizing lo m' with
  | nil =>
    cases m' with
    | nil => rfl
    | cons c rest =>
      simp only [Memory.wfFrom, Bool.and_eq_true, decide_eq_true_eq] at h'
      have := he c.1
      simp only [Memory.read, if_true] at this
      exact absurd this.symm h'.1.2
  | cons c rest ih =>
    obtain ⟨k, v⟩ := c
    have hw := h
    simp only [Memory.wfFrom, Bool.and_eq_true, decide_eq_true_eq] at h
    cases m' with
    | nil =>
      have := he k
      simp only [Memory.read, if_true] at this
      exact absurd this h.1.2
    | cons c' rest' =>
      obtain ⟨k', v'⟩ := c'
      have hw' := h'
      simp only [Memory.wfFrom, Bool.and_eq_true, decide_eq_true_eq] at h'
      have hk : k = k' := by
        rcases Nat.lt_trichotomy k k' with hlt | heq | hgt
        · have h1 : Memory.read ((k', v') :: rest') k = 0#8 :=
            Memory.read_below (lo := k') (by simp [Memory.wfFrom, h'.1.2, h'.2]) hlt
          have h2 := he k
          rw [h1] at h2
          simp only [Memory.read, if_true] at h2
          exact absurd h2 h.1.2
        · exact heq
        · have h1 : Memory.read ((k, v) :: rest) k' = 0#8 :=
            Memory.read_below (lo := k) (by simp [Memory.wfFrom, h.1.2, h.2]) hgt
          have h2 := he k'
          rw [h1] at h2
          simp only [Memory.read, if_true] at h2
          exact absurd h2.symm h'.1.2
      subst hk
      have hv : v = v' := by simpa [Memory.read] using he k
      subst hv
      have hrest : rest = rest' := by
        refine ih h.2 h'.2 fun a => ?_
        by_cases hak : k = a
        · subst hak
          rw [Memory.read_below h.2 (by omega), Memory.read_below h'.2 (by omega)]
        · simpa [Memory.read, hak] using he a
      rw [hrest]

/-! ### `Memory.write` -/

theorem Memory.wfFrom_write {lo a : Nat} {v : Byte} {m : List Host.Cell} (hlo : lo ≤ a)
    (h : Memory.wfFrom lo m = true) : Memory.wfFrom lo (Memory.write m a v) = true := by
  induction m generalizing lo with
  | nil => exact Memory.wfFrom_cons hlo rfl
  | cons c rest ih =>
    obtain ⟨k, b⟩ := c
    have hw := h
    simp only [Memory.wfFrom, Bool.and_eq_true, decide_eq_true_eq] at h
    unfold Memory.write
    by_cases h1 : a < k
    · simp only [h1, if_true]
      exact Memory.wfFrom_cons hlo (by simp [Memory.wfFrom, h.1.2, h.2, Nat.succ_le_of_lt h1])
    · by_cases h2 : a = k
      · subst h2
        simp only [h1, if_false, if_true]
        exact Memory.wfFrom_cons hlo h.2
      · simp only [h1, h2, if_false, Memory.wfFrom, Bool.and_eq_true, decide_eq_true_eq]
        exact ⟨h.1, ih (by omega) h.2⟩

/-- A write keeps the canonical form. -/
theorem Memory.wf_write {a : Nat} {v : Byte} {m : List Host.Cell} (h : Memory.wf m = true) :
    Memory.wf (Memory.write m a v) = true := Memory.wfFrom_write (Nat.zero_le a) h

/-- A write inside a bound keeps the bound. -/
theorem Memory.below_write {n a : Nat} {v : Byte} {m : List Host.Cell} (ha : a < n)
    (h : Memory.below n m = true) : Memory.below n (Memory.write m a v) = true := by
  induction m with
  | nil => exact Memory.below_cons ha rfl
  | cons c rest ih =>
    obtain ⟨k, b⟩ := c
    have hr : Memory.below n rest = true := by
      simp only [Memory.below, List.all_cons, Bool.and_eq_true] at h ⊢
      exact h.2
    unfold Memory.write
    by_cases h1 : a < k
    · simp only [h1, if_true]
      exact Memory.below_cons ha h
    · by_cases h2 : a = k
      · rw [if_neg h1, if_pos h2]
        exact Memory.below_cons ha hr
      · simp only [h1, h2, if_false]
        have := ih hr
        simp only [Memory.below, List.all_cons, Bool.and_eq_true] at h this ⊢
        exact ⟨h.1, this⟩

theorem Memory.read_write_from {lo a b : Nat} {v : Byte} {m : List Host.Cell}
    (h : Memory.wfFrom lo m = true) :
    Memory.read (Memory.write m a v) b = if a = b then v else Memory.read m b := by
  induction m generalizing lo with
  | nil => exact Memory.read_cons a b v [] rfl
  | cons c rest ih =>
    obtain ⟨k, w⟩ := c
    have hw := h
    simp only [Memory.wfFrom, Bool.and_eq_true, decide_eq_true_eq] at h
    unfold Memory.write
    by_cases h1 : a < k
    · simp only [h1, if_true]
      exact Memory.read_cons a b v _
        (Memory.read_below (lo := k) (by simp [Memory.wfFrom, h.1.2, h.2]) h1)
    · by_cases h2 : a = k
      · subst h2
        simp only [h1, if_false, if_true]
        rw [Memory.read_cons a b v _ (Memory.read_below h.2 (by omega))]
        by_cases hab : a = b
        · simp [hab]
        · simp [hab, Memory.read]
      · simp only [h1, h2, if_false, Memory.read]
        by_cases hkb : k = b
        · have : a ≠ b := by omega
          simp [hkb, this]
        · simp only [hkb, if_false]
          exact ih h.2

/-- A read after a write: the byte written at its own address, every other address as before. -/
theorem Memory.read_write {a b : Nat} {v : Byte} {m : List Host.Cell} (h : Memory.wf m = true) :
    Memory.read (Memory.write m a v) b = if a = b then v else Memory.read m b :=
  Memory.read_write_from h

/-! ### `Memory.ofBytes` and `Memory.toBytes` -/

theorem Memory.wfFrom_ofBytes (a : Nat) (p : Packet) :
    Memory.wfFrom a (Memory.ofBytes a p) = true := by
  induction p generalizing a with
  | nil => rfl
  | cons b bs ih => exact Memory.wfFrom_cons (Nat.le_refl a) (ih (a + 1))

/-- The memory of given bytes is canonical. -/
theorem Memory.wf_ofBytes (p : Packet) : Memory.wf (Memory.ofBytes 0 p) = true :=
  Memory.wfFrom_ofBytes 0 p

theorem Memory.below_ofBytes (a : Nat) (p : Packet) :
    Memory.below (a + p.length) (Memory.ofBytes a p) = true := by
  induction p generalizing a with
  | nil => rfl
  | cons b bs ih =>
    have := ih (a + 1)
    rw [List.length_cons, show a + (bs.length + 1) = a + 1 + bs.length by omega]
    exact Memory.below_cons (by omega) this

theorem Memory.read_ofBytes_from (a b : Nat) (p : Packet) :
    Memory.read (Memory.ofBytes a p) (a + b) = p.getD b 0#8 := by
  induction p generalizing a b with
  | nil => simp [Memory.ofBytes, Memory.read]
  | cons x xs ih =>
    have h0 : Memory.read (Memory.ofBytes (a + 1) xs) a = 0#8 :=
      Memory.read_below (Memory.wfFrom_ofBytes (a + 1) xs) (by omega)
    rw [Memory.ofBytes, Memory.read_cons _ _ _ _ h0]
    cases b with
    | zero => simp
    | succ b =>
      have hne : a ≠ a + (b + 1) := by omega
      rw [if_neg hne, show a + (b + 1) = a + 1 + b by omega, ih]
      simp

/-- The memory of given bytes reads them back, and 0x00 beyond. -/
theorem Memory.read_ofBytes (b : Nat) (p : Packet) :
    Memory.read (Memory.ofBytes 0 p) b = p.getD b 0#8 := by
  have := Memory.read_ofBytes_from 0 b p
  rwa [Nat.zero_add] at this

@[simp] theorem Memory.toBytes_length (m : List Host.Cell) (n : Nat) :
    (Memory.toBytes m n).length = n := by
  simp [Memory.toBytes]

theorem Memory.toBytes_getD (m : List Host.Cell) (n a : Nat) (h : a < n) :
    (Memory.toBytes m n).getD a 0#8 = Memory.read m a := by
  simp [Memory.toBytes, h]

/-- Storing the bytes a canonical memory holds below a bound gives the same memory back. -/
theorem Memory.ofBytes_toBytes {m : List Host.Cell} {n : Nat} (h : Memory.wf m = true)
    (hb : Memory.below n m = true) : Memory.ofBytes 0 (Memory.toBytes m n) = m := by
  refine Memory.ext_of_read (Memory.wf_ofBytes _) h fun a => ?_
  rw [Memory.read_ofBytes]
  by_cases ha : a < n
  · exact Memory.toBytes_getD m n a ha
  · rw [Memory.read_above hb (by omega), List.getD_eq_default]
    simp
    omega

end Sys2Proof.Machine
end

