-- ==== Sys2Proof/Laws/State.lean ====
section
/-! SUPPORT. One lemma per field per update of the state and of a filter, so that no proof unfolds a
record update. -/

namespace Sys2Proof.Machine

/-! ### `emit` writes the response channel alone -/

@[simp] theorem emit_config (r : Packet) (s : State) : (emit r s).config = s.config := rfl
@[simp] theorem emit_resetIn (r : Packet) (s : State) : (emit r s).resetIn = s.resetIn := rfl
@[simp] theorem emit_commands (r : Packet) (s : State) : (emit r s).commands = s.commands := rfl
@[simp] theorem emit_responses (r : Packet) (s : State) :
    (emit r s).responses = s.responses ++ [r] := rfl
@[simp] theorem emit_context (r : Packet) (s : State) : (emit r s).context = s.context := rfl

/-! ### `hold` writes the context alone -/

@[simp] theorem hold_config (f : FilterContext) (s : State) : (hold f s).config = s.config := rfl
@[simp] theorem hold_resetIn (f : FilterContext) (s : State) : (hold f s).resetIn = s.resetIn := rfl
@[simp] theorem hold_commands (f : FilterContext) (s : State) :
    (hold f s).commands = s.commands := rfl
@[simp] theorem hold_responses (f : FilterContext) (s : State) :
    (hold f s).responses = s.responses := rfl
@[simp] theorem hold_context (f : FilterContext) (s : State) : (hold f s).context = some f := rfl

/-! ### `popCommand` writes the command channel alone -/

@[simp] theorem popCommand_config (s : State) : s.popCommand.config = s.config := rfl
@[simp] theorem popCommand_resetIn (s : State) : s.popCommand.resetIn = s.resetIn := rfl
@[simp] theorem popCommand_commands (s : State) : s.popCommand.commands = s.commands.tail := rfl
@[simp] theorem popCommand_responses (s : State) : s.popCommand.responses = s.responses := rfl
@[simp] theorem popCommand_context (s : State) : s.popCommand.context = s.context := rfl

/-! ### `resetState` keeps the parameters alone -/

@[simp] theorem resetState_config (s : State) : (resetState s).config = s.config := rfl
@[simp] theorem resetState_resetIn (s : State) : (resetState s).resetIn = false := rfl
@[simp] theorem resetState_commands (s : State) : (resetState s).commands = [] := rfl
@[simp] theorem resetState_responses (s : State) : (resetState s).responses = [] := rfl
@[simp] theorem resetState_context (s : State) : (resetState s).context = none := rfl

/-! ### The host's moves -/

@[simp] theorem submit_config (s : State) (p : Packet) : (s.submit p).config = s.config := rfl
@[simp] theorem submit_resetIn (s : State) (p : Packet) : (s.submit p).resetIn = s.resetIn := rfl
@[simp] theorem submit_commands (s : State) (p : Packet) :
    (s.submit p).commands = s.commands ++ [p] := rfl
@[simp] theorem submit_responses (s : State) (p : Packet) :
    (s.submit p).responses = s.responses := rfl
@[simp] theorem submit_context (s : State) (p : Packet) : (s.submit p).context = s.context := rfl

@[simp] theorem takeResponse_config (s : State) : s.takeResponse.config = s.config := rfl
@[simp] theorem takeResponse_resetIn (s : State) : s.takeResponse.resetIn = s.resetIn := rfl
@[simp] theorem takeResponse_commands (s : State) : s.takeResponse.commands = s.commands := rfl
@[simp] theorem takeResponse_responses (s : State) :
    s.takeResponse.responses = s.responses.tail := rfl
@[simp] theorem takeResponse_context (s : State) : s.takeResponse.context = s.context := rfl

@[simp] theorem assertReset_config (s : State) : s.assertReset.config = s.config := rfl
@[simp] theorem assertReset_resetIn (s : State) : s.assertReset.resetIn = true := rfl
@[simp] theorem assertReset_commands (s : State) : s.assertReset.commands = s.commands := rfl
@[simp] theorem assertReset_responses (s : State) : s.assertReset.responses = s.responses := rfl
@[simp] theorem assertReset_context (s : State) : s.assertReset.context = s.context := rfl

@[simp] theorem place_config (s : State) (p : Packet) : (s.place p).config = s.config := rfl
@[simp] theorem place_resetIn (s : State) (p : Packet) : (s.place p).resetIn = false := rfl
@[simp] theorem place_commands (s : State) (p : Packet) :
    (s.place p).commands = p :: s.commands := rfl
@[simp] theorem place_responses (s : State) (p : Packet) :
    (s.place p).responses = s.responses := rfl
@[simp] theorem place_context (s : State) (p : Packet) : (s.place p).context = s.context := rfl

/-! ### `memWrite` writes BITS alone -/

@[simp] theorem memWrite_bitCount (f : FilterContext) (a : Nat) (v : Byte) :
    (memWrite f a v).bitCount = f.bitCount := rfl
@[simp] theorem memWrite_hashCount (f : FilterContext) (a : Nat) (v : Byte) :
    (memWrite f a v).hashCount = f.hashCount := rfl
@[simp] theorem memWrite_seed (f : FilterContext) (a : Nat) (v : Byte) :
    (memWrite f a v).seed = f.seed := rfl
@[simp] theorem memWrite_tol (f : FilterContext) (a : Nat) (v : Byte) :
    (memWrite f a v).tol = f.tol := rfl
@[simp] theorem memWrite_itemCount (f : FilterContext) (a : Nat) (v : Byte) :
    (memWrite f a v).itemCount = f.itemCount := rfl
@[simp] theorem memWrite_nbytes (f : FilterContext) (a : Nat) (v : Byte) :
    (memWrite f a v).nbytes = f.nbytes := rfl
@[simp] theorem memWrite_bits (f : FilterContext) (a : Nat) (v : Byte) :
    (memWrite f a v).bits = Memory.write f.bits a v := rfl

end Sys2Proof.Machine
end

