-- ==== Sys2Proof/Laws/Ops.lean ====
section
/-! SUPPORT. What each shared operation can do: answering and failing, one bit set and tested, a
sequence of bits set. The provers cite these instead of unfolding. -/

namespace Sys2Proof.Machine

/-! ### Answering -/

/-- A failing command writes nothing but its 4-byte response (R238). -/
theorem raise_eq (st : Status) (s : State) :
    raise st s = .next { s with responses := s.responses ++ [failurePacket st] } := rfl

/-- A successful command emits status OK and its results. -/
theorem respond_eq (results : Packet) (s : State) :
    respond results s = .next { s with responses := s.responses ++ [okPacket results] } := rfl

@[simp] theorem failurePacket_length (st : Status) : (failurePacket st).length = 4 :=
  u32Bytes_length _

@[simp] theorem okPacket_length (results : Packet) :
    (okPacket results).length = 4 + results.length := by
  simp [okPacket]

@[simp] theorem statusWord_failurePacket (st : Status) :
    statusWord (failurePacket st) = statusCode st := by
  have := u32At_append [] [] (statusCode st)
  simpa [statusWord, failurePacket] using this

@[simp] theorem statusWord_okPacket (results : Packet) :
    statusWord (okPacket results) = statusCode .ok := by
  have := u32At_append [] results (statusCode .ok)
  simpa [statusWord, okPacket] using this

theorem legalResponse_failurePacket (st : Status) : legalResponse (failurePacket st) = true := by
  have h : (statusCode st).toNat ≤ 5 := by cases st <;> decide
  simp [legalResponse, h]

theorem legalResponse_okPacket (results : Packet) : legalResponse (okPacket results) = true := by
  have h : (statusCode .ok).toNat ≤ 5 := by decide
  simp [legalResponse, h]

/-! ### Masks and bits of a byte -/

theorem getLsbD_maskOf (i : Int) (k : Nat) :
    (maskOf i).getLsbD k = decide (k < 8 ∧ k = i.toNat % 8) := by
  have hlt : i.toNat % 8 < 8 := Nat.mod_lt _ (by decide)
  unfold maskOf
  generalize i.toNat % 8 = r at hlt ⊢
  by_cases hk : k < 8
  · interval_cases r <;> interval_cases k <;> decide
  · rw [BitVec.getLsbD_of_ge _ _ (by omega)]
    simp [hk]

/-! ### One bit -/

@[simp] theorem setBit_bitCount (f : FilterContext) (i : Int) :
    (setBit f i).bitCount = f.bitCount := by unfold setBit; split <;> rfl
@[simp] theorem setBit_hashCount (f : FilterContext) (i : Int) :
    (setBit f i).hashCount = f.hashCount := by unfold setBit; split <;> rfl
@[simp] theorem setBit_seed (f : FilterContext) (i : Int) :
    (setBit f i).seed = f.seed := by unfold setBit; split <;> rfl
@[simp] theorem setBit_tol (f : FilterContext) (i : Int) :
    (setBit f i).tol = f.tol := by unfold setBit; split <;> rfl
@[simp] theorem setBit_itemCount (f : FilterContext) (i : Int) :
    (setBit f i).itemCount = f.itemCount := by unfold setBit; split <;> rfl
@[simp] theorem setBit_nbytes (f : FilterContext) (i : Int) :
    (setBit f i).nbytes = f.nbytes := by unfold setBit; split <;> rfl
@[simp] theorem inRange_setBit (f : FilterContext) (i j : Int) :
    inRange (setBit f i) j = inRange f j := by simp [inRange]

/-- Out of range, `SetBit` does nothing (R150). -/
theorem setBit_outOfRange {f : FilterContext} {i : Int} (h : inRange f i = false) :
    setBit f i = f := by simp [setBit, h]

/-- `SetBit` keeps the canonical form. -/
theorem setBit_wf {f : FilterContext} (i : Int) (h : Memory.wf f.bits = true) :
    Memory.wf (setBit f i).bits = true := by
  unfold setBit
  split
  · exact Memory.wf_write h
  · exact h

/-- `SetBit` stays inside the buffer. -/
theorem setBit_below {f : FilterContext} (i : Int) (h : Memory.below f.nbytes f.bits = true) :
    Memory.below f.nbytes (setBit f i).bits = true := by
  unfold setBit
  split
  next hr =>
    refine Memory.below_write ?_ h
    simp only [inRange, Bool.and_eq_true, decide_eq_true_eq] at hr
    exact hr.2
  next => exact h

/-- The bytes after `SetBit`: the addressed byte with one more bit, every other byte as before
(R150). -/
theorem memRead_setBit {f : FilterContext} (i : Int) (a : Nat) (h : Memory.wf f.bits = true) :
    memRead (setBit f i) a =
      if inRange f i = true ∧ byteOf i = a then memRead f a ||| maskOf i else memRead f a := by
  by_cases hr : inRange f i = true
  · have hs : (setBit f i).bits =
        Memory.write f.bits (byteOf i) (memRead f (byteOf i) ||| maskOf i) := by
      simp [setBit, hr]
    unfold memRead
    rw [hs, Memory.read_write h]
    by_cases ha : byteOf i = a
    · subst ha
      simp [hr, memRead]
    · simp [ha]
  · simp [setBit, hr]

/-- A bit after `SetBit`: set before, or the one that was set now (R150, R151). -/
theorem isBitSet_setBit {f : FilterContext} (i j : Int) (h : Memory.wf f.bits = true) :
    isBitSet (setBit f i) j = (isBitSet f j || (inRange f i && decide (i = j))) := by
  by_cases hj : inRange f j = true
  · have hj0 : 0 ≤ j := by
      simp only [inRange, Bool.and_eq_true, decide_eq_true_eq] at hj
      exact hj.1
    have e1 : isBitSet (setBit f i) j = (memRead (setBit f i) (byteOf j)).getLsbD (j.toNat % 8) := by
      simp [isBitSet, hj]
    have e2 : isBitSet f j = (memRead f (byteOf j)).getLsbD (j.toNat % 8) := by simp [isBitSet, hj]
    rw [e1, e2, memRead_setBit i _ h]
    by_cases hi : inRange f i = true
    · have hi0 : 0 ≤ i := by
        simp only [inRange, Bool.and_eq_true, decide_eq_true_eq] at hi
        exact hi.1
      by_cases hb : byteOf i = byteOf j
      · rw [if_pos ⟨hi, hb⟩, BitVec.getLsbD_or, getLsbD_maskOf, hi, Bool.true_and]
        congr 1
        have hb' : i.toNat / 8 = j.toNat / 8 := hb
        have hm : j.toNat % 8 < 8 := Nat.mod_lt _ (by decide)
        rw [decide_eq_decide]
        omega
      · have hne : i ≠ j := fun he => hb (by rw [he])
        rw [if_neg (fun hc => hb hc.2)]
        simp [hne]
    · rw [if_neg (fun hc => hi hc.1)]
      simp [hi]
  · have hj' : inRange (setBit f i) j = false := by simpa using hj
    have hjf : inRange f j = false := by simpa using hj
    have hlast : (inRange f i && decide (i = j)) = false := by
      by_cases he : i = j
      · subst he
        simp [hjf]
      · simp [he]
    simp [isBitSet, hjf, hlast]

/-! ### A sequence of bits -/

@[simp] theorem setBits_nil (f : FilterContext) : setBits f [] = f := rfl
theorem setBits_cons (f : FilterContext) (i : Nat) (is : List Nat) :
    setBits f (i :: is) = setBits (setBit f (i : Int)) is := rfl

/-- Setting bits keeps the six parameters. -/
theorem setBits_params (f : FilterContext) (is : List Nat) :
    (setBits f is).bitCount = f.bitCount ∧ (setBits f is).hashCount = f.hashCount ∧
    (setBits f is).seed = f.seed ∧ (setBits f is).tol = f.tol ∧
    (setBits f is).itemCount = f.itemCount ∧ (setBits f is).nbytes = f.nbytes := by
  induction is generalizing f with
  | nil => simp
  | cons i is ih =>
    have := ih (setBit f (i : Int))
    simpa [setBits_cons] using this

@[simp] theorem setBits_bitCount (f : FilterContext) (is : List Nat) :
    (setBits f is).bitCount = f.bitCount := (setBits_params f is).1
@[simp] theorem setBits_hashCount (f : FilterContext) (is : List Nat) :
    (setBits f is).hashCount = f.hashCount := (setBits_params f is).2.1
@[simp] theorem setBits_seed (f : FilterContext) (is : List Nat) :
    (setBits f is).seed = f.seed := (setBits_params f is).2.2.1
@[simp] theorem setBits_tol (f : FilterContext) (is : List Nat) :
    (setBits f is).tol = f.tol := (setBits_params f is).2.2.2.1
@[simp] theorem setBits_itemCount (f : FilterContext) (is : List Nat) :
    (setBits f is).itemCount = f.itemCount := (setBits_params f is).2.2.2.2.1
@[simp] theorem setBits_nbytes (f : FilterContext) (is : List Nat) :
    (setBits f is).nbytes = f.nbytes := (setBits_params f is).2.2.2.2.2

/-- Setting bits keeps the canonical form. -/
theorem setBits_wf {f : FilterContext} (is : List Nat) (h : Memory.wf f.bits = true) :
    Memory.wf (setBits f is).bits = true := by
  induction is generalizing f with
  | nil => exact h
  | cons i is ih => exact ih (setBit_wf (i : Int) h)

/-- Setting bits stays inside the buffer. -/
theorem setBits_below {f : FilterContext} (is : List Nat)
    (h : Memory.below f.nbytes f.bits = true) :
    Memory.below f.nbytes (setBits f is).bits = true := by
  induction is generalizing f with
  | nil => exact h
  | cons i is ih =>
    have h1 := setBit_below (i : Int) h
    have := ih (f := setBit f (i : Int)) (by simpa using h1)
    simpa [setBits_cons] using this

/-- A bit after a sequence of `SetBit`: set before, or in range and in the sequence (R189). -/
theorem isBitSet_setBits {f : FilterContext} (is : List Nat) (j : Int)
    (h : Memory.wf f.bits = true) :
    isBitSet (setBits f is) j =
      (isBitSet f j || (inRange f j && is.any fun i => decide ((i : Int) = j))) := by
  induction is generalizing f with
  | nil => simp
  | cons i is ih =>
    rw [setBits_cons, ih (setBit_wf (i : Int) h), isBitSet_setBit (i : Int) j h, inRange_setBit,
      List.any_cons]
    by_cases he : (i : Int) = j
    · subst he
      cases isBitSet f (i : Int) <;> cases inRange f (i : Int) <;> simp
    · simp [he]

/-! ### Equal filters -/

/-- Two filters with canonical memories inside equal buffers are equal when their parameters and all
their bits are. -/
theorem FilterContext.ext_of_bits {f g : FilterContext} (hbc : f.bitCount = g.bitCount)
    (hhc : f.hashCount = g.hashCount) (hs : f.seed = g.seed) (ht : f.tol = g.tol)
    (hic : f.itemCount = g.itemCount) (hn : f.nbytes = g.nbytes)
    (hf : Memory.wf f.bits = true) (hg : Memory.wf g.bits = true)
    (hfb : Memory.below f.nbytes f.bits = true) (hgb : Memory.below g.nbytes g.bits = true)
    (hb : ∀ j : Nat, isBitSet f (j : Int) = isBitSet g (j : Int)) : f = g := by
  have hbits : f.bits = g.bits := by
    refine Memory.ext_of_read hf hg fun a => ?_
    by_cases ha : a < f.nbytes
    · apply BitVec.eq_of_getLsbD_eq
      intro k hk
      have hj := hb (8 * a + k)
      have h1 : (8 * a + k) / 8 = a := by omega
      have h2 : (8 * a + k) % 8 = k := by omega
      have hrf : inRange f ((8 * a + k : Nat) : Int) = true := by
        simp only [inRange, Bool.and_eq_true, decide_eq_true_eq, Int.toNat_natCast, h1]
        exact ⟨Int.natCast_nonneg _, ha⟩
      have hrg : inRange g ((8 * a + k : Nat) : Int) = true := by
        simp only [inRange, Bool.and_eq_true, decide_eq_true_eq, Int.toNat_natCast, h1]
        exact ⟨Int.natCast_nonneg _, hn ▸ ha⟩
      unfold isBitSet at hj
      rw [if_pos hrf, if_pos hrg] at hj
      rw [byteOf, Int.toNat_natCast, h1, h2] at hj
      exact hj
    · rw [Memory.read_above hfb (by omega), Memory.read_above hgb (by omega)]
  cases f
  cases g
  simp_all

end Sys2Proof.Machine
end

