-- ==== Sys2Proof/Laws/Exec.lean ====
section
/-! SUPPORT. What a command and a step can do, said once. -/

namespace Sys2Proof.Machine

/-- Every command ends in one of three ways: it fails and only answers, it succeeds and only answers,
or it succeeds and holds a filter. Only SETBIT, ADD and the constructions end in the third way. -/
theorem exec_cases (i : Instr) (s : State) :
    (∃ st, st ≠ Status.ok ∧ exec i s = raise st s) ∨
    (∃ results, exec i s = respond results s) ∨
    (∃ results f, exec i s = respond results (hold f s)) := by
  cases i <;> simp only [exec]
  case fnv1a item => exact .inr (.inl ⟨_, rfl⟩)
  case murmur3 seed item => exact .inr (.inl ⟨_, rfl⟩)
  case indices hashCount bitCount seed item =>
    unfold execIndices
    split
    · exact .inl ⟨_, by decide, rfl⟩
    split
    · exact .inl ⟨_, by decide, rfl⟩
    · exact .inr (.inl ⟨_, rfl⟩)
  case setbit index =>
    unfold execSetbit
    split
    · exact .inl ⟨_, by decide, rfl⟩
    · exact .inr (.inr ⟨_, _, rfl⟩)
  case getbit index =>
    unfold execGetbit
    split
    · exact .inl ⟨_, by decide, rfl⟩
    · exact .inr (.inl ⟨_, rfl⟩)
  case rdbits =>
    unfold execRdbits
    split
    · exact .inl ⟨_, by decide, rfl⟩
    · exact .inr (.inl ⟨_, rfl⟩)
  case size n tol =>
    unfold execSize
    split
    · exact .inl ⟨_, by decide, rfl⟩
    split
    · exact .inl ⟨_, by decide, rfl⟩
    dsimp only
    split
    · exact .inl ⟨_, by decide, rfl⟩
    · exact .inr (.inl ⟨_, rfl⟩)
  case newsz n tol seed =>
    unfold execNewsz
    split
    · exact .inl ⟨_, by decide, rfl⟩
    split
    · exact .inl ⟨_, by decide, rfl⟩
    dsimp only
    split
    · exact .inl ⟨_, by decide, rfl⟩
    split
    · exact .inl ⟨_, by decide, rfl⟩
    · exact .inr (.inr ⟨_, _, rfl⟩)
  case newex bitCount hashCount itemCount tol seed =>
    unfold execNewex
    split
    · exact .inl ⟨_, by decide, rfl⟩
    split
    · exact .inl ⟨_, by decide, rfl⟩
    · exact .inr (.inr ⟨_, _, rfl⟩)
  case load bitCount hashCount itemCount tol seed bytes =>
    unfold execLoad
    split
    · exact .inl ⟨_, by decide, rfl⟩
    split
    · exact .inl ⟨_, by decide, rfl⟩
    split
    · exact .inl ⟨_, by decide, rfl⟩
    · exact .inr (.inr ⟨_, _, rfl⟩)
  case add item =>
    unfold execAdd
    split
    · exact .inl ⟨_, by decide, rfl⟩
    · exact .inr (.inr ⟨_, _, rfl⟩)
  case contains item =>
    unfold execContains
    split
    · exact .inl ⟨_, by decide, rfl⟩
    · exact .inr (.inl ⟨_, rfl⟩)
  case rdpar =>
    unfold execRdpar
    split
    · exact .inl ⟨_, by decide, rfl⟩
    · exact .inr (.inl ⟨_, rfl⟩)

/-- Every step is a reset, an idle step, a rejected packet or one command. -/
theorem step_cases (s : State) :
    (s.resetIn = true ∧ step s = .next (resetState s)) ∨
    (s.resetIn = false ∧ s.commands = [] ∧ step s = .next s) ∨
    (∃ p rest e, s.resetIn = false ∧ s.commands = p :: rest ∧ decode p = .error e ∧
      step s = raise .illegalCommand s.popCommand) ∨
    (∃ p rest i, s.resetIn = false ∧ s.commands = p :: rest ∧ decode p = .ok i ∧
      step s = exec i s.popCommand) := by
  by_cases hr : s.resetIn = true
  · exact .inl ⟨hr, by simp [step, hr, takeReset]⟩
  · have hr' : s.resetIn = false := by simpa using hr
    cases hc : s.commands with
    | nil => exact .inr (.inl ⟨hr', rfl, by simp [step, hr', State.nextPacket, hc, idle]⟩)
    | cons p rest =>
      cases hd : decode p with
      | error e =>
        exact .inr (.inr (.inl ⟨p, rest, e, hr', rfl, hd, by
          simp [step, hr', State.nextPacket, hc, hd, rejectPacket]⟩))
      | ok i =>
        exact .inr (.inr (.inr ⟨p, rest, i, hr', rfl, hd, by
          simp [step, hr', State.nextPacket, hc, hd]⟩))

end Sys2Proof.Machine
end

