-- ==== Sys2Proof/Laws/Filter.lean ====
section
/-! SUPPORT. What the shared operations of the IndexDeriver and of the Filter can do, said once: the
indices of an item, the bits and bytes after a sequence of `SetBit`, and the operand tests of the
constructions. -/

namespace Sys2Proof.Machine

/-! ### Bit indices that are not negative -/

theorem inRange_natCast (f : FilterContext) (i : Nat) :
    inRange f (i : Int) = decide (i / 8 < f.nbytes) := by
  unfold inRange
  rw [Int.toNat_natCast]
  simp

theorem isBitSet_natCast (f : FilterContext) (i : Nat) :
    isBitSet f (i : Int) =
      (decide (i / 8 < f.nbytes) && (memRead f (i / 8)).getLsbD (i % 8)) := by
  unfold isBitSet byteOf
  rw [inRange_natCast, Int.toNat_natCast]
  by_cases h : i / 8 < f.nbytes <;> simp [h]

/-! ### `SetBit` writes BITS alone -/

theorem setBit_eq (f : FilterContext) (i : Int) :
    setBit f i = { f with bits := (setBit f i).bits } := by
  unfold setBit
  split <;> rfl

theorem setBits_eq (f : FilterContext) (is : List Nat) :
    setBits f is = { f with bits := (setBits f is).bits } := by
  have h := setBits_params f is
  cases hg : setBits f is
  rw [hg] at h
  simp_all

/-- A byte that holds none of the indices keeps its value. -/
theorem memRead_setBits {f : FilterContext} (is : List Nat) (a : Nat)
    (h : Memory.wf f.bits = true) (hn : ∀ i ∈ is, i / 8 ≠ a) :
    memRead (setBits f is) a = memRead f a := by
  induction is generalizing f with
  | nil => rfl
  | cons i is ih =>
    rw [setBits_cons, ih (setBit_wf _ h) (fun j hj => hn j (by simp [hj])), memRead_setBit _ _ h,
      if_neg]
    rintro ⟨-, h2⟩
    exact hn i (by simp) (by simpa [byteOf] using h2)

/-! ### Derived indices -/

@[simp] theorem indices_length (item : Packet) (hashCount bitCount : Nat) (seed : U32) :
    (indices item hashCount bitCount seed).length = hashCount := by
  simp [indices]

theorem mem_indices {item : Packet} {hashCount bitCount : Nat} {seed : U32} {i : Nat} :
    i ∈ indices item hashCount bitCount seed ↔
      ∃ j, j < hashCount ∧ indexAt (fnv item) (murmur item seed) bitCount j = i := by
  simp [indices]

theorem indexAt_lt (h1 h2 : U32) {bitCount : Nat} (hb : 1 ≤ bitCount) (i : Nat) :
    indexAt h1 h2 bitCount i < bitCount := Nat.mod_lt _ (by omega)

theorem indexAt_lt_word (h1 h2 : U32) (bitCount i : Nat) : indexAt h1 h2 bitCount i < 2 ^ 32 :=
  lt_of_le_of_lt (Nat.mod_le _ _) (BitVec.isLt _)

/-- BITS, TOL, ITEMCOUNT and NBYTES take no part in index derivation. -/
theorem filterIndices_congr {f g : FilterContext} (hb : g.bitCount = f.bitCount)
    (hk : g.hashCount = f.hashCount) (hs : g.seed = f.seed) (item : Packet) :
    filterIndices g item = filterIndices f item := by
  unfold filterIndices
  rw [hb, hk, hs]

/-! ### Tests -/

theorem exceedsCapacity_iff (c : Config) (n : Nat) :
    exceedsCapacity c n = true ↔ c.maxBytes < n := by
  simp [exceedsCapacity]

theorem representable_iff (m : Nat) : representable m = true ↔ m ≤ 9223372036854775807 := by
  simp [representable]

theorem explicitCountsOk_iff (bitCount hashCount itemCount : I64) (tol : F64) :
    explicitCountsOk bitCount hashCount itemCount tol = true ↔
      toleranceOk tol = true ∧ 0 < bitCount.toInt ∧ 0 < hashCount.toInt ∧ 0 ≤ itemCount.toInt := by
  simp [explicitCountsOk, and_assoc]

/-! ### Counts -/

/-- A count below 2^63 keeps its value in an I64 field. -/
theorem toInt_ofNat_of_le {n : Nat} (h : n ≤ 9223372036854775807) :
    (BitVec.ofNat 64 n).toInt = n := by
  rw [BitVec.toInt_eq_toNat_cond, BitVec.toNat_ofNat, Nat.mod_eq_of_lt (by omega)]
  split <;> omega

/-- A count that is not negative is at most the largest I64. -/
theorem natCount_le (v : I64) : natCount v ≤ 9223372036854775807 := by
  have := v.isLt
  unfold natCount
  rw [BitVec.toInt_eq_toNat_cond]
  split <;> omega

end Sys2Proof.Machine
end

