-- ==== Sys2Proof/Laws/Log.lean ====
section
/-! SUPPORT. The integer bounds of Machine/SizingPolicy.lean bound the real logarithms (log entry 6):
the series, its rounded terms and its rest, then `ln 2`. -/

namespace Sys2Proof.Machine

/-- The `k`-th term of `2 * (z + z^3/3 + z^5/5 + ...)`. -/
noncomputable def logTerm (z : ℝ) (k : ℕ) : ℝ := 2 * (1 / (2 * k + 1)) * z ^ (2 * k + 1)

theorem logTerm_nonneg {z : ℝ} (hz : 0 ≤ z) (k : ℕ) : 0 ≤ logTerm z k := by
  unfold logTerm
  positivity

/-- A rounded quotient lies at most one below the quotient. -/
theorem div_bounds (a b : ℕ) (hb : 0 < b) :
    ((a / b : ℕ) : ℝ) ≤ (a : ℝ) / b ∧ (a : ℝ) / b ≤ ((a / b : ℕ) : ℝ) + 1 := by
  refine ⟨Nat.cast_div_le, ?_⟩
  rw [div_le_iff₀ (by exact_mod_cast hb)]
  have h := Nat.lt_div_mul_add (a := a) hb
  have h' : (a : ℝ) ≤ ((a / b * b + b : ℕ) : ℝ) := by exact_mod_cast h.le
  push_cast at h' ⊢
  linarith

/-- `logSum` is the partial sum of the series, at most one unit short for each term. -/
theorem logSum_bounds (u v : ℕ) (hv : 0 < v) (k : ℕ) :
    (logSum u v k : ℝ) ≤ 2 ^ logBits * ∑ i ∈ Finset.range k, logTerm (u / v) i ∧
    2 ^ logBits * ∑ i ∈ Finset.range k, logTerm (u / v) i ≤ (logSum u v k : ℝ) + k := by
  induction k with
  | zero => simp [logSum]
  | succ k ih =>
    have hb : 0 < (2 * k + 1) * v ^ (2 * k + 1) := by positivity
    obtain ⟨h1, h2⟩ := div_bounds (2 ^ (logBits + 1) * u ^ (2 * k + 1)) _ hb
    have hterm : ((2 ^ (logBits + 1) * u ^ (2 * k + 1) : ℕ) : ℝ) /
        (((2 * k + 1) * v ^ (2 * k + 1) : ℕ) : ℝ) = 2 ^ logBits * logTerm (u / v) k := by
      have hv' : (v : ℝ) ≠ 0 := by exact_mod_cast hv.ne'
      unfold logTerm
      push_cast
      rw [div_pow, pow_succ (2 : ℝ) logBits]
      field_simp
    rw [hterm] at h1 h2
    rw [Finset.sum_range_succ, mul_add]
    simp only [logSum]
    push_cast at h1 h2 ⊢
    constructor
    · linarith [ih.1]
    · linarith [ih.2]

/-- The rest of the series after `logTerms` terms is at most one unit, for `z` up to 1/3. -/
theorem logRest_le {z : ℝ} (hz : 0 ≤ z) (hz3 : z ≤ 1 / 3) {S : ℝ}
    (h : HasSum (fun j : ℕ => logTerm z (j + logTerms)) S) : 2 ^ logBits * S ≤ 1 := by
  have hg : HasSum (fun j : ℕ => 2 / 225 * (1 / 3 : ℝ) ^ 225 * (1 / 9) ^ j)
      (2 / 225 * (1 / 3 : ℝ) ^ 225 * (1 - 1 / 9)⁻¹) :=
    (hasSum_geometric_of_lt_one (by norm_num) (by norm_num)).mul_left _
  have hle : S ≤ 2 / 225 * (1 / 3 : ℝ) ^ 225 * (1 - 1 / 9)⁻¹ := by
    refine hasSum_le (fun j => ?_) h hg
    unfold logTerm logTerms
    have hp : z ^ (2 * (j + 112) + 1) ≤ (1 / 3 : ℝ) ^ (2 * (j + 112) + 1) :=
      pow_le_pow_left₀ hz hz3 _
    have he : (1 / 3 : ℝ) ^ (2 * (j + 112) + 1) = (1 / 3 : ℝ) ^ 225 * (1 / 9) ^ j := by
      rw [show 2 * (j + 112) + 1 = 225 + 2 * j by ring, pow_add, pow_mul]
      norm_num
    have hd : 2 * (1 / (2 * ((j + 112 : ℕ) : ℝ) + 1)) ≤ 2 / 225 := by
      rw [mul_one_div]
      have h0 : (0 : ℝ) ≤ j := Nat.cast_nonneg j
      have h1 : (225 : ℝ) ≤ 2 * ((j + 112 : ℕ) : ℝ) + 1 := by
        push_cast
        linarith
      exact div_le_div_of_nonneg_left (by norm_num) (by norm_num) h1
    calc 2 * (1 / (2 * ((j + 112 : ℕ) : ℝ) + 1)) * z ^ (2 * (j + 112) + 1)
        ≤ 2 / 225 * ((1 / 3 : ℝ) ^ 225 * (1 / 9) ^ j) := by
          rw [← he]
          exact mul_le_mul hd hp (pow_nonneg hz _) (by norm_num)
      _ = 2 / 225 * (1 / 3 : ℝ) ^ 225 * (1 / 9) ^ j := by ring
  calc 2 ^ logBits * S ≤ 2 ^ logBits * (2 / 225 * (1 / 3 : ℝ) ^ 225 * (1 - 1 / 9)⁻¹) := by
        gcongr
    _ ≤ 1 := by
        unfold logBits
        rw [show (320 : ℕ) = 160 + 160 from rfl, pow_add]
        norm_num

/-- `logLow` and `logLow + logSlack` bound the logarithm. -/
theorem logLow_bounds (u v : ℕ) (hv : 0 < v) (h3 : 3 * u ≤ v) :
    (logLow u v : ℝ) ≤ 2 ^ logBits * Real.log ((v + u) / (v - u)) ∧
    2 ^ logBits * Real.log ((v + u) / (v - u)) ≤ (logLow u v : ℝ) + logSlack := by
  have hvR : (0 : ℝ) < v := by exact_mod_cast hv
  have hz : (0 : ℝ) ≤ (u : ℝ) / v := by positivity
  have hz3 : (u : ℝ) / v ≤ 1 / 3 := by
    rw [div_le_div_iff₀ hvR (by norm_num)]
    have : (3 : ℝ) * u ≤ v := by exact_mod_cast h3
    linarith
  have hsum := Real.hasSum_log_sub_log_of_abs_lt_one (x := (u : ℝ) / v)
    (by rw [abs_of_nonneg hz]; linarith)
  have hlog : Real.log (1 + (u : ℝ) / v) - Real.log (1 - (u : ℝ) / v) =
      Real.log ((v + u) / (v - u)) := by
    have huv : (0 : ℝ) < 1 - (u : ℝ) / v := by linarith
    rw [← Real.log_div (by linarith) huv.ne']
    congr 1
    have hne : (v : ℝ) - u ≠ 0 := by
      have h5 : (u : ℝ) < v := by
        have := (div_le_iff₀ hvR).1 hz3
        linarith
      linarith
    field_simp
  rw [hlog] at hsum
  have hsum' : HasSum (logTerm ((u : ℝ) / v)) (Real.log ((v + u) / (v - u))) := hsum
  obtain ⟨h1, h2⟩ := logSum_bounds u v hv logTerms
  have hle := sum_le_hasSum (Finset.range logTerms)
    (fun i _ => logTerm_nonneg hz i) hsum'
  have hrest : HasSum (fun j => logTerm ((u : ℝ) / v) (j + logTerms))
      (Real.log ((v + u) / (v - u)) - ∑ i ∈ Finset.range logTerms, logTerm (u / v) i) := by
    rw [hasSum_nat_add_iff]
    simpa using hsum'
  have htail := logRest_le hz hz3 hrest
  have hpow : (0 : ℝ) ≤ 2 ^ logBits := by positivity
  constructor
  · calc (logLow u v : ℝ) ≤ _ := h1
      _ ≤ _ := mul_le_mul_of_nonneg_left hle hpow
  · have h3 : (logSlack : ℝ) = (logTerms : ℝ) + 1 := by unfold logSlack; push_cast; ring
    unfold logLow
    rw [h3]
    rw [mul_sub] at htail
    linarith

/-- The bounds of `ln 2`. -/
theorem ln2_bounds : (ln2Low : ℝ) ≤ 2 ^ logBits * Real.log 2 ∧
    2 ^ logBits * Real.log 2 ≤ (ln2High : ℝ) := by
  have h := logLow_bounds 1 3 (by norm_num) (by norm_num)
  have h2 : (((3 : ℕ) : ℝ) + ((1 : ℕ) : ℝ)) / (((3 : ℕ) : ℝ) - ((1 : ℕ) : ℝ)) = 2 := by norm_num
  rw [h2] at h
  refine ⟨h.1, ?_⟩
  unfold ln2High
  push_cast
  exact h.2

/-- `ceilDiv` is the ceiling of the quotient. -/
theorem ceilDiv_eq_ceil (a b : ℕ) (hb : 0 < b) : ceilDiv a b = ⌈(a : ℝ) / b⌉₊ := by
  refine eq_of_forall_ge_iff fun n => ?_
  rw [Nat.ceil_le, div_le_iff₀ (by exact_mod_cast hb)]
  unfold ceilDiv
  rw [← Nat.lt_succ_iff, Nat.div_lt_iff_lt_mul hb]
  have : ((a : ℝ) ≤ n * b) ↔ a ≤ n * b := by exact_mod_cast Iff.rfl
  rw [this, Nat.succ_mul]
  omega

end Sys2Proof.Machine
end

