-- ==== Sys2Proof/Laws/PerInstr.lean ====
section
/-! SUPPORT. One law per command, as syntax: its packet starts with its header word, and its length
is the one its format gives (R81, R83, R89). -/

namespace Sys2Proof.Laws.Header

/-- The packet starts with the opcode and three zero bytes, the opcode is assigned a format, and the
packet is as long as the format's fixed part and the payload. -/
def Statement (i : Instr) : Prop :=
  (encode i).take 4 = [i.opcode, 0, 0, 0] ∧
  ∃ f read, opcodeRow i.opcode.toNat = some (f, read) ∧
    (encode i).length = f.fixed + i.payload.length ∧ (f.hasData = false → i.payload = [])

theorem fnv1a (item : Packet) : Statement (.fnv1a item) :=
  ⟨rfl, .b, _, rfl, by simp [encode, Instr.fields, Instr.payload, Format.fixed]; omega,
    by simp [Format.hasData]⟩

theorem murmur3 (seed : U32) (item : Packet) : Statement (.murmur3 seed item) :=
  ⟨rfl, .sb, _, rfl, by simp [encode, Instr.fields, Instr.payload, Format.fixed]; omega,
    by simp [Format.hasData]⟩

theorem indices (hashCount bitCount : I64) (seed : U32) (item : Packet) :
    Statement (.indices hashCount bitCount seed item) :=
  ⟨rfl, .ib, _, rfl, by simp [encode, Instr.fields, Instr.payload, Format.fixed]; omega,
    by simp [Format.hasData]⟩

theorem setbit (index : I64) : Statement (.setbit index) :=
  ⟨rfl, .x, _, rfl, by simp [encode, Instr.fields, Instr.payload, Format.fixed], fun _ => rfl⟩

theorem getbit (index : I64) : Statement (.getbit index) :=
  ⟨rfl, .x, _, rfl, by simp [encode, Instr.fields, Instr.payload, Format.fixed], fun _ => rfl⟩

theorem rdbits : Statement .rdbits := ⟨rfl, .z, _, rfl, rfl, fun _ => rfl⟩

theorem size (n : I64) (tol : F64) : Statement (.size n tol) :=
  ⟨rfl, .s, _, rfl, by simp [encode, Instr.fields, Instr.payload, Format.fixed], fun _ => rfl⟩

theorem newsz (n : I64) (tol : F64) (seed : U32) : Statement (.newsz n tol seed) :=
  ⟨rfl, .n, _, rfl, by simp [encode, Instr.fields, Instr.payload, Format.fixed], fun _ => rfl⟩

theorem newex (bitCount hashCount itemCount : I64) (tol : F64) (seed : U32) :
    Statement (.newex bitCount hashCount itemCount tol seed) :=
  ⟨rfl, .e, _, rfl, by simp [encode, Instr.fields, Instr.payload, Format.fixed], fun _ => rfl⟩

theorem load (bitCount hashCount itemCount : I64) (tol : F64) (seed : U32) (bytes : Packet) :
    Statement (.load bitCount hashCount itemCount tol seed bytes) :=
  ⟨rfl, .l, _, rfl, by simp [encode, Instr.fields, Instr.payload, Format.fixed]; omega,
    by simp [Format.hasData]⟩

theorem add (item : Packet) : Statement (.add item) :=
  ⟨rfl, .b, _, rfl, by simp [encode, Instr.fields, Instr.payload, Format.fixed]; omega,
    by simp [Format.hasData]⟩

theorem contains (item : Packet) : Statement (.contains item) :=
  ⟨rfl, .b, _, rfl, by simp [encode, Instr.fields, Instr.payload, Format.fixed]; omega,
    by simp [Format.hasData]⟩

theorem rdpar : Statement .rdpar := ⟨rfl, .z, _, rfl, rfl, fun _ => rfl⟩

end Sys2Proof.Laws.Header
end

