-- ==== Sys2Proof/Laws/Sizing.lean ====
section
/-! SUPPORT. The two candidates of `SizeBits` bound the exact real value of R170, so where they agree
that is the value (log entry 6); no fraction with a small denominator lies as close to `ln 2` as its
bounds (log entry 7). -/

namespace Sys2Proof.Machine

/-! ### What passing the tolerance test says of a pattern -/

theorem toleranceOk_iff (t : F64) : toleranceOk t = true ↔
    f64Exponent t < 1023 ∧ f64Sign t = false ∧ 0 < f64Significand t := by
  simp only [toleranceOk, f64Finite, Bool.and_eq_true, decide_eq_true_eq, Bool.not_eq_true',
    ne_eq]
  constructor
  · rintro ⟨⟨⟨-, h2⟩, h3⟩, h4⟩
    exact ⟨h4, h2, h3⟩
  · rintro ⟨h4, h2, h3⟩
    exact ⟨⟨⟨by omega, h2⟩, h3⟩, h4⟩

theorem f64Fraction_lt (t : F64) : f64Fraction t < 2 ^ 52 := BitVec.isLt _

theorem f64Exponent_lt (t : F64) : f64Exponent t < 2048 := BitVec.isLt _

theorem f64Significand_lt (t : F64) : f64Significand t < 2 ^ 53 := by
  have h := f64Fraction_lt t
  unfold f64Significand
  split <;> omega

theorem tolTop_spec {t : F64} (h : 0 < f64Significand t) :
    2 ^ tolTop t ≤ f64Significand t ∧ f64Significand t < 2 * 2 ^ tolTop t := by
  refine ⟨Nat.log2_self_le h.ne', ?_⟩
  have := Nat.lt_log2_self (n := f64Significand t)
  rw [pow_succ] at this
  unfold tolTop
  omega

theorem tolTop_le {t : F64} (h : 0 < f64Significand t) : tolTop t ≤ 52 := by
  have h1 := (tolTop_spec h).1
  have h2 := f64Significand_lt t
  by_contra hc
  have : 2 ^ 53 ≤ 2 ^ tolTop t := Nat.pow_le_pow_right (by norm_num) (by omega)
  omega

/-- The exponent `e` of a tolerance is between 1 and 1074. -/
theorem tolExponent_spec {t : F64} (h : toleranceOk t = true) :
    f64Scale t + tolTop t + tolExponent t = 1074 ∧ 1 ≤ tolExponent t := by
  obtain ⟨he, -, hs⟩ := (toleranceOk_iff t).1 h
  have h1 := tolTop_le hs
  unfold tolExponent f64Scale
  omega

/-- The exact value of a positive pattern. -/
theorem f64Real_pos_eq {t : F64} (h : f64Sign t = false) :
    ((f64Real t : ℚ) : ℝ) = (f64Significand t : ℝ) * 2 ^ f64Scale t / 2 ^ 1074 := by
  unfold f64Real
  rw [h, if_neg (by decide), one_mul, Rat.cast_div, Rat.cast_mul, Rat.cast_pow, Rat.cast_pow,
    Rat.cast_natCast, Rat.cast_ofNat]

theorem f64Real_pos {t : F64} (h : toleranceOk t = true) : 0 < ((f64Real t : ℚ) : ℝ) := by
  obtain ⟨-, hs, hm⟩ := (toleranceOk_iff t).1 h
  rw [f64Real_pos_eq hs]
  have : (0 : ℝ) < f64Significand t := by exact_mod_cast hm
  positivity

/-- `-ln p` is `e * ln 2 - ln f`. -/
theorem neg_log_tol {t : F64} (h : toleranceOk t = true) :
    -Real.log ((f64Real t : ℚ) : ℝ) = tolExponent t * Real.log 2 -
      Real.log ((f64Significand t : ℝ) / 2 ^ tolTop t) := by
  obtain ⟨-, hs, hm⟩ := (toleranceOk_iff t).1 h
  have he := (tolExponent_spec h).1
  have hM : (0 : ℝ) < f64Significand t := by exact_mod_cast hm
  rw [f64Real_pos_eq hs, ← he, pow_add, pow_add]
  have hrw : (f64Significand t : ℝ) * 2 ^ f64Scale t /
      (2 ^ f64Scale t * 2 ^ tolTop t * 2 ^ tolExponent t) =
      (f64Significand t : ℝ) / 2 ^ tolTop t / 2 ^ tolExponent t := by
    field_simp
  rw [hrw, Real.log_div (by positivity) (by positivity), Real.log_pow]
  ring

/-- The bounds of `ln f`. -/
theorem tolLog_bounds {t : F64} (h : toleranceOk t = true) :
    (tolLogLow t : ℝ) ≤ 2 ^ logBits * Real.log ((f64Significand t : ℝ) / 2 ^ tolTop t) ∧
    2 ^ logBits * Real.log ((f64Significand t : ℝ) / 2 ^ tolTop t) ≤ (tolLogLow t : ℝ) + logSlack := by
  obtain ⟨-, -, hm⟩ := (toleranceOk_iff t).1 h
  obtain ⟨h1, h2⟩ := tolTop_spec hm
  have hb := logLow_bounds (f64Significand t - 2 ^ tolTop t) (f64Significand t + 2 ^ tolTop t)
    (by positivity) (by omega)
  have hr : (((f64Significand t + 2 ^ tolTop t : ℕ) : ℝ) +
      ((f64Significand t - 2 ^ tolTop t : ℕ) : ℝ)) /
      (((f64Significand t + 2 ^ tolTop t : ℕ) : ℝ) -
      ((f64Significand t - 2 ^ tolTop t : ℕ) : ℝ)) = (f64Significand t : ℝ) / 2 ^ tolTop t := by
    push_cast [Nat.cast_sub h1]
    field_simp
    ring
  rw [hr] at hb
  exact hb

theorem sub_le_cast (a b : ℕ) : (a : ℝ) - b ≤ ((a - b : ℕ) : ℝ) := by
  rcases le_total b a with h | h
  · rw [Nat.cast_sub h]
  · rw [Nat.sub_eq_zero_of_le h]
    have : (a : ℝ) ≤ b := by exact_mod_cast h
    push_cast
    linarith

/-- The bounds of `-ln p`. -/
theorem negLog_bounds {t : F64} (h : toleranceOk t = true) :
    (negLogLow t : ℝ) ≤ 2 ^ logBits * -Real.log ((f64Real t : ℚ) : ℝ) ∧
    2 ^ logBits * -Real.log ((f64Real t : ℚ) : ℝ) ≤ (negLogHigh t : ℝ) := by
  obtain ⟨he, hs, hm⟩ := (toleranceOk_iff t).1 h
  obtain ⟨a1, a2⟩ := ln2_bounds
  obtain ⟨b1, b2⟩ := tolLog_bounds h
  have hexp : (0 : ℝ) ≤ tolExponent t := Nat.cast_nonneg _
  rw [neg_log_tol h, mul_sub]
  have c1 := mul_le_mul_of_nonneg_left a1 hexp
  have c2 := mul_le_mul_of_nonneg_left a2 hexp
  constructor
  · unfold negLogLow
    rcases le_total (tolLogLow t + logSlack) (tolExponent t * ln2Low) with hle | hle
    · rw [Nat.cast_sub hle]
      push_cast
      linarith
    · rw [Nat.sub_eq_zero_of_le hle]
      have hp : ((f64Real t : ℚ) : ℝ) ≤ 1 := by
        rw [f64Real_pos_eq hs, div_le_one (by positivity)]
        have h1 : (f64Significand t : ℝ) ≤ 2 ^ 53 := by exact_mod_cast (f64Significand_lt t).le
        have h2 : f64Scale t ≤ 1021 := by
          unfold f64Scale
          omega
        calc (f64Significand t : ℝ) * 2 ^ f64Scale t ≤ 2 ^ 53 * 2 ^ 1021 :=
              mul_le_mul h1 (pow_le_pow_right₀ (by norm_num) h2) (by positivity) (by positivity)
          _ = 2 ^ 1074 := (pow_add (2 : ℝ) 53 1021).symm
      have hneg : 0 ≤ -Real.log ((f64Real t : ℚ) : ℝ) := by
        have := Real.log_nonpos (f64Real_pos h).le hp
        linarith
      rw [neg_log_tol h] at hneg
      have h3 : (0 : ℝ) ≤ 2 ^ logBits * (tolExponent t * Real.log 2 -
        Real.log ((f64Significand t : ℝ) / 2 ^ tolTop t)) := by positivity
      rw [mul_sub] at h3
      push_cast
      exact h3
  · unfold negLogHigh
    have := sub_le_cast (tolExponent t * ln2High) (tolLogLow t)
    push_cast at this ⊢
    linarith

/-! ### The argument of R170 and its bounds -/

/-- The lower bound of the argument of R170. -/
noncomputable def sizeArgLow (n : ℕ) (t : F64) : ℝ :=
  ((n * negLogLow t * 2 ^ logBits : ℕ) : ℝ) / ((ln2High * ln2High : ℕ) : ℝ)

/-- Its upper bound. -/
noncomputable def sizeArgHigh (n : ℕ) (t : F64) : ℝ :=
  ((n * negLogHigh t * 2 ^ logBits : ℕ) : ℝ) / ((ln2Low * ln2Low : ℕ) : ℝ)

theorem ln2Low_ge : 2 ^ 319 ≤ ln2Low := by decide +kernel

theorem ln2Low_pos : 0 < ln2Low := lt_of_lt_of_le (by positivity) ln2Low_ge

theorem ln2High_pos : 0 < ln2High := Nat.lt_of_lt_of_le ln2Low_pos (Nat.le_add_right _ _)

theorem sizeBitsLow_eq (n : ℕ) (t : F64) : sizeBitsLow n t = max 1 ⌈sizeArgLow n t⌉₊ := by
  unfold sizeBitsLow sizeArgLow
  rw [ceilDiv_eq_ceil _ _ (Nat.mul_pos ln2High_pos ln2High_pos)]

theorem sizeBitsHigh_eq (n : ℕ) (t : F64) : sizeBitsHigh n t = max 1 ⌈sizeArgHigh n t⌉₊ := by
  unfold sizeBitsHigh sizeArgHigh
  rw [ceilDiv_eq_ceil _ _ (Nat.mul_pos ln2Low_pos ln2Low_pos)]

/-- The exact argument lies between its bounds. -/
theorem sizeArg_bounds (n : ℕ) {t : F64} (h : toleranceOk t = true) :
    sizeArgLow n t ≤ sizeArg n t ∧ sizeArg n t ≤ sizeArgHigh n t := by
  obtain ⟨a1, a2⟩ := ln2_bounds
  obtain ⟨b1, b2⟩ := negLog_bounds h
  have hn : (0 : ℝ) ≤ n := Nat.cast_nonneg n
  have hl2 : 0 < Real.log 2 := Real.log_pos (by norm_num)
  have hL : (0 : ℝ) < ln2Low := by exact_mod_cast ln2Low_pos
  have hH : (0 : ℝ) < ln2High := by exact_mod_cast ln2High_pos
  set y := -Real.log ((f64Real t : ℚ) : ℝ) with hy
  have hP : (0 : ℝ) < 2 ^ logBits := by positivity
  have hlow0 : (0 : ℝ) ≤ negLogLow t := Nat.cast_nonneg _
  have harg : sizeArg n t = n * (2 ^ logBits * y) * 2 ^ logBits / (2 ^ logBits * Real.log 2) ^ 2 := by
    unfold sizeArg
    rw [hy]
    field_simp
  rw [harg]
  unfold sizeArgLow sizeArgHigh
  push_cast
  generalize (2 : ℝ) ^ logBits = P at *
  generalize (ln2Low : ℝ) = L at *
  generalize (ln2High : ℝ) = H at *
  generalize (negLogLow t : ℝ) = A at *
  generalize (negLogHigh t : ℝ) = B at *
  have hy0 : (0 : ℝ) ≤ P * y := le_trans hlow0 b1
  rw [← sq, ← sq]
  constructor
  · exact div_le_div₀ (by positivity) (by gcongr) (by positivity) (by gcongr)
  · exact div_le_div₀ (mul_nonneg (mul_nonneg hn (le_trans hy0 b2)) hP.le) (by gcongr)
      (by positivity) (by gcongr)

/-- The value of R170 is one of the two candidates or between them. -/
theorem sizeBits_between (n : ℕ) {t : F64} (h : toleranceOk t = true) :
    sizeBitsLow n t ≤ max 1 ⌈sizeArg n t⌉₊ ∧ max 1 ⌈sizeArg n t⌉₊ ≤ sizeBitsHigh n t := by
  obtain ⟨h1, h2⟩ := sizeArg_bounds n h
  rw [sizeBitsLow_eq, sizeBitsHigh_eq]
  exact ⟨max_le_max le_rfl (Nat.ceil_mono h1), max_le_max le_rfl (Nat.ceil_mono h2)⟩

/-! ### No fraction lies between the bounds of `ln 2` -/

/-- Two neighbouring fractions enclose the bounds of `ln 2`, and every fraction between neighbours
has a denominator at least as large as the sum of theirs: so no fraction with a denominator below
2^63 lies between the bounds. -/
theorem no_fraction_near_ln2 {m N : ℕ} (hm : m < 2 ^ 63) (h1 : m * ln2Low ≤ N * 2 ^ logBits)
    (h2 : N * 2 ^ logBits < m * ln2High) : False := by
  have e1 : 7588677070500300149689648652 * 2 ^ logBits < 10948146776518569570414591839 * ln2Low := by
    decide +kernel
  have e2 : 3898810567035220162062449397 * ln2High ≤ 2702449552077784505330440355 * 2 ^ logBits := by
    decide +kernel
  have hP : 0 < 2 ^ logBits := by positivity
  have f1 : 7588677070500300149689648652 * m < 10948146776518569570414591839 * N := by
    rcases Nat.eq_zero_or_pos m with h0 | h0
    · subst h0
      omega
    · have g1 := Nat.mul_lt_mul_of_pos_left e1 h0
      have g2 := Nat.mul_le_mul_left 10948146776518569570414591839 h1
      refine Nat.lt_of_mul_lt_mul_right (a := 2 ^ logBits) ?_
      calc 7588677070500300149689648652 * m * 2 ^ logBits = m * (7588677070500300149689648652 * 2 ^ logBits) := by ring
        _ < m * (10948146776518569570414591839 * ln2Low) := g1
        _ = 10948146776518569570414591839 * (m * ln2Low) := by ring
        _ ≤ 10948146776518569570414591839 * (N * 2 ^ logBits) := g2
        _ = 10948146776518569570414591839 * N * 2 ^ logBits := by ring
  have f2 : 3898810567035220162062449397 * N < 2702449552077784505330440355 * m := by
    have g1 := Nat.mul_le_mul_left m e2
    have g2 := Nat.mul_lt_mul_of_pos_left h2 (show 0 < 3898810567035220162062449397 by norm_num)
    refine Nat.lt_of_mul_lt_mul_right (a := 2 ^ logBits) ?_
    calc 3898810567035220162062449397 * N * 2 ^ logBits = 3898810567035220162062449397 * (N * 2 ^ logBits) := by ring
      _ < 3898810567035220162062449397 * (m * ln2High) := g2
      _ = m * (3898810567035220162062449397 * ln2High) := by ring
      _ ≤ m * (2702449552077784505330440355 * 2 ^ logBits) := g1
      _ = 2702449552077784505330440355 * m * 2 ^ logBits := by ring
  omega

end Sys2Proof.Machine
end

