-- ==== Sys2Proof/Tests/Slice0.lean ====
section
/-! SUPPORT. Tests. Expected results are those of spec/95_test_vectors.md or of the examples in the
rules; then, for every obligation with hypotheses, a witness that meets them all together. -/

namespace Sys2Proof.Tests

open Sys2Proof.Machine

/-! ### Helpers -/

/-- The bytes of an ASCII string. -/
def ascii (s : String) : Packet := s.toList.map fun c => BitVec.ofNat 8 c.toNat

/-- The CORE after reset with given packets on the command channel. -/
def fed (commands : List Packet) : State := { State.reset with commands := commands }

/-- The CORE after reset that holds a filter. -/
def holding (f : FilterContext) : State := { State.reset with context := some f }

/-- The responses after an outcome. -/
def responsesOf : Host.Outcome State Fault Refusal → List Packet
  | .next s => s.responses
  | .fault _ => []
  | .refused _ => []

/-- The buffer after an outcome. -/
def bytesOf : Host.Outcome State Fault Refusal → Option Packet
  | .next s => s.context.map bufferBytes
  | .fault _ => none
  | .refused _ => none

/-- The answer to one packet in the state after reset. -/
def answer (p : Packet) : List Packet := responsesOf (step (fed [p]))

/-- The filter of 95_test_vectors.md section 5 after `SETBIT 8`: BITCOUNT 12, BITS `81 01`. -/
def smallFilter : FilterContext :=
  { bitCount := 12, hashCount := 1, seed := 0, tol := 0x3FE0000000000000, itemCount := 0,
    nbytes := 2, bits := [(0, 0x81), (1, 0x01)] }

/-- The source's scenario (95_test_vectors.md section 1): parameters, and its 18 bytes. -/
def scenarioBytes : Packet :=
  [0x2a, 0x71, 0x67, 0xcf, 0xbf, 0xdd, 0x50, 0x3c, 0x8a, 0xe7, 0x51, 0xea, 0x96, 0x14, 0xe5, 0xb3,
   0x06, 0xaf]

def scenario (bytes : Packet) : FilterContext :=
  { bitCount := 144, hashCount := 10, seed := 0xe9a500b4, tol := 0x3F1A36E2EB1C432D,
    itemCount := 10, nbytes := bytes.length, bits := Memory.ofBytes 0 bytes }

/-! ### WellFormed: a term the check refuses -/

/-- A payload of 2^32 bytes has no LEN (R9, R82). -/
theorem test_wellFormed_refuses (d : Packet) (h : d.length = 4294967296) :
    (Instr.fnv1a d).wellFormed = false ∧ (Instr.load 1 1 0 0 0 d).wellFormed = false := by
  simp [Instr.wellFormed, Instr.payload, h]

/-- There is such a payload. -/
theorem test_wellFormed_term :
    (Instr.add (List.replicate 4294967296 0)).wellFormed = false := by
  unfold Instr.wellFormed Instr.payload
  rw [List.length_replicate]
  exact decide_eq_false (Nat.lt_irrefl _)

theorem test_wellFormed_accepts : (Instr.add (ascii "abc")).wellFormed = true := by decide

/-! ### Decoding: packets written out in 95_test_vectors.md and in the rules' examples -/

/-- R121's example. -/
theorem test_decode_fnv1a : decode [0x10, 0, 0, 0, 0x0b, 0, 0, 0, 0x65, 0x78, 0x61, 0x6d, 0x70, 0x6c,
    0x65, 0x2e, 0x63, 0x6f, 0x6d] = .ok (.fnv1a (ascii "example.com")) := by decide

/-- Section 3. -/
theorem test_decode_murmur3 : decode [0x11, 0, 0, 0, 0x8c, 0xb2, 0x47, 0x97, 3, 0, 0, 0, 0x61, 0x62,
    0x63] = .ok (.murmur3 0x9747b28c (ascii "abc")) := by decide

/-- Section 4. -/
theorem test_decode_indices : decode [0x20, 0, 0, 0, 0x0a, 0, 0, 0, 0, 0, 0, 0, 0x90, 0, 0, 0, 0, 0, 0,
    0, 0xb4, 0, 0xa5, 0xe9, 0x0b, 0, 0, 0, 0x65, 0x78, 0x61, 0x6d, 0x70, 0x6c, 0x65, 0x2e, 0x63, 0x6f,
    0x6d] = .ok (.indices 10 144 0xe9a500b4 (ascii "example.com")) := by decide

/-- Program P4. -/
theorem test_decode_setbit : decode [0x30, 0, 0, 0, 0xc8, 0, 0, 0, 0, 0, 0, 0] =
    .ok (.setbit 200) := by decide

theorem test_decode_getbit : decode [0x31, 0, 0, 0, 0xff, 0xff, 0xff, 0xff, 0xff, 0xff, 0xff, 0xff] =
    .ok (.getbit (-1)) := by decide

theorem test_decode_rdbits : decode [0x32, 0, 0, 0] = .ok .rdbits := by decide

/-- Section 6. -/
theorem test_decode_size : decode [0x40, 0, 0, 0, 0xfd, 0xff, 0xff, 0xff, 0xff, 0xff, 0xff, 0xff, 0, 0,
    0, 0, 0, 0, 0xe0, 0x3f] = .ok (.size (-3) 0x3FE0000000000000) := by decide

/-- Section 7. -/
theorem test_decode_newsz : decode [0x50, 0, 0, 0, 0x0a, 0, 0, 0, 0, 0, 0, 0, 0xfc, 0xa9, 0xf1, 0xd2,
    0x4d, 0x62, 0x50, 0x3f, 0x8c, 0xb2, 0x47, 0x97] =
    .ok (.newsz 10 0x3F50624DD2F1A9FC 0x9747b28c) := by decide

/-- Section 7; BITCOUNT stands before HASHCOUNT here, after it in INDICES. -/
theorem test_decode_newex : decode [0x51, 0, 0, 0, 0x90, 0, 0, 0, 0, 0, 0, 0, 0x0a, 0, 0, 0, 0, 0, 0, 0,
    0x0a, 0, 0, 0, 0, 0, 0, 0, 0x2d, 0x43, 0x1c, 0xeb, 0xe2, 0x36, 0x1a, 0x3f, 0xb4, 0, 0xa5, 0xe9] =
    .ok (.newex 144 10 10 0x3F1A36E2EB1C432D 0xe9a500b4) := by decide

/-- R188's example. -/
theorem test_decode_load : decode [0x52, 0, 0, 0, 0x90, 0, 0, 0, 0, 0, 0, 0, 0x0a, 0, 0, 0, 0, 0, 0, 0,
    0x0a, 0, 0, 0, 0, 0, 0, 0, 0x2d, 0x43, 0x1c, 0xeb, 0xe2, 0x36, 0x1a, 0x3f, 0xb4, 0, 0xa5, 0xe9,
    0x12, 0, 0, 0, 0x2a, 0x71, 0x67, 0xcf, 0xbf, 0xdd, 0x50, 0x3c, 0x8a, 0xe7, 0x51, 0xea, 0x96, 0x14,
    0xe5, 0xb3, 0x06, 0xaf] =
    .ok (.load 144 10 10 0x3F1A36E2EB1C432D 0xe9a500b4 scenarioBytes) := by decide

theorem test_decode_add : decode [0x53, 0, 0, 0, 1, 0, 0, 0, 0x61] = .ok (.add (ascii "a")) := by
  decide

theorem test_decode_contains : decode [0x54, 0, 0, 0, 0, 0, 0, 0] = .ok (.contains []) := by decide

theorem test_decode_rdpar : decode [0x55, 0, 0, 0] = .ok .rdpar := by decide

/-- Section 7's rejected packets, each by its reason. -/
theorem test_decode_rejects :
    decode [] = .error .noHeader ∧ decode [0x10, 0, 0] = .error .noHeader ∧
    decode [0, 0, 0, 0] = .error .reservedOpcode ∧
    decode [0x12, 0, 0, 0, 0, 0, 0, 0] = .error .reservedOpcode ∧
    decode [0x33, 0, 0, 0] = .error .reservedOpcode ∧
    decode [0xff, 0, 0, 0] = .error .reservedOpcode ∧
    decode [0x10, 1, 0, 0, 0, 0, 0, 0] = .error .reservedBits ∧
    decode [0x32, 0, 0, 0x80] = .error .reservedBits ∧
    decode [0x53, 0, 0, 0] = .error .tooShort ∧
    decode [0x10, 0, 0, 0, 2, 0, 0, 0, 0x61] = .error .wrongLength ∧
    decode [0x10, 0, 0, 0, 0, 0, 0, 0, 0x61] = .error .wrongLength ∧
    decode [0x32, 0, 0, 0, 0] = .error .wrongLength ∧
    decode [0x30, 0, 0, 0, 3, 0, 0, 0] = .error .tooShort ∧
    decode [0x40, 0, 0, 0, 0x0a, 0, 0, 0, 0, 0, 0, 0, 0xfc, 0xa9, 0xf1, 0xd2, 0x4d, 0x62, 0x50, 0x3f,
      0] = .error .wrongLength := by decide

/-- Section 7: IllegalCommand straight after reset. -/
theorem test_illegal_answer : answer [0, 0, 0, 0] = [[5, 0, 0, 0]] := by decide

/-- The opcode table's words: the header word alone stands for operands of zeros. -/
theorem test_table_words : decodeTableWord 32 0x20 = some (.indices 0 0 0 []) ∧
    decodeTableWord 32 0x55 = some .rdpar ∧ decodeTableWord 32 0x56 = none := by decide

theorem test_withFetchWord :
    responsesOf (step (State.reset.withFetchWord 32 0x10)) = [[0, 0, 0, 0, 0xc5, 0x9d, 0x1c, 0x81]] := by
  decide

/-! ### Meanings -/

/-- Section 2: multiply first, then exclusive or (the published order would give `2c 29 0c e4`). -/
theorem test_fnv1a_order : answer [0x10, 0, 0, 0, 1, 0, 0, 0, 0x61] =
    [[0, 0, 0, 0, 0x7e, 0x5d, 0x0c, 0x05]] := by decide

/-- Section 2: a byte above 127 is zero-extended; two UTF-8 bytes. -/
theorem test_fnv1a_bytes : fnv [0xff] = 0x050c5de0 ∧ fnv [0xc3, 0xa9] = 0xce77c1fd ∧
    fnv (ascii "example10.com/resource?query=bugs") = 0xfea327ed := by decide

/-- Section 3: tails of 0 to 3 bytes. -/
theorem test_murmur3_tails : murmur [] 1 = 0x514e28b7 ∧ murmur (ascii "abcde") 0 = 0xe89b9af6 ∧
    murmur [0x21, 0x43] 0 = 0xa0f7b07a ∧ murmur [0x21, 0x43, 0x65] 0 = 0x7e4a8634 ∧
    murmur (ascii "Hello, world!") 0x9747b28c = 0x24884cba := by decide

/-- Section 3. -/
theorem test_murmur3_answer : answer [0x11, 0, 0, 0, 0x8c, 0xb2, 0x47, 0x97, 3, 0, 0, 0, 0x61, 0x62,
    0x63] = [[0, 0, 0, 0, 0xdd, 0x62, 0x4a, 0xc8]] := by decide

/-- Section 4: i = 7 wraps modulo 2^32 before it is reduced modulo 144 (54, not 22). -/
theorem test_indices_wrap : indices (ascii "example.com") 10 144 0xe9a500b4 =
    [136, 58, 124, 46, 112, 34, 100, 54, 120, 42] := by decide

/-- Section 4: a bit count of 2^32 leaves the values unreduced. -/
theorem test_indices_answer : answer [0x20, 0, 0, 0, 2, 0, 0, 0, 0, 0, 0, 0, 0, 0, 0, 0, 1, 0, 0, 0, 0,
    0, 0, 0, 1, 0, 0, 0, 0x61] = [[0, 0, 0, 0, 0x7e, 0x5d, 0x0c, 0x05, 0x30, 0xc7, 0x31, 0x41]] := by
  decide

/-- Section 5, step 5: a padding bit is in range. -/
theorem test_setbit_padding :
    bytesOf (exec (.setbit 15) (holding smallFilter)) = some [0x81, 0x81] := by decide

/-- Section 5, step 6, and P4, step 10: out of range and negative change nothing. -/
theorem test_setbit_outside :
    bytesOf (exec (.setbit 16) (holding smallFilter)) = some [0x81, 0x01] ∧
    bytesOf (exec (.setbit (-1)) (holding smallFilter)) = some [0x81, 0x01] := by decide

/-- R153's example. -/
theorem test_getbit_order :
    responsesOf (exec (.getbit 1) (holding (scenario scenarioBytes))) = [[0, 0, 0, 0, 1, 0, 0, 0]] ∧
    responsesOf (exec (.getbit 0) (holding (scenario scenarioBytes))) =
      [[0, 0, 0, 0, 0, 0, 0, 0]] := by decide

/-- Section 5, step 9: out of range reads 0. -/
theorem test_getbit_outside :
    responsesOf (exec (.getbit 16) (holding smallFilter)) = [[0, 0, 0, 0, 0, 0, 0, 0]] := by decide

/-- R154's example. -/
theorem test_rdbits :
    responsesOf (exec .rdbits (holding (scenario scenarioBytes))) =
      [[0, 0, 0, 0, 0x12, 0, 0, 0] ++ scenarioBytes] := by decide

/-- P5: no filter yet. -/
theorem test_rdbits_noFilter : answer [0x32, 0, 0, 0] = [[2, 0, 0, 0]] := by decide

/-- Section 6: `SIZE 10, 0.001` and the smallest positive tolerance. -/
theorem test_size :
    responsesOf (exec (.size 10 0x3F50624DD2F1A9FC) State.reset) =
      [[0, 0, 0, 0, 0x90, 0, 0, 0, 0, 0, 0, 0, 0x0a, 0, 0, 0, 0, 0, 0, 0]] ∧
    responsesOf (exec (.size 5 1) State.reset) =
      [[0, 0, 0, 0, 0x44, 0x1e, 0, 0, 0, 0, 0, 0, 0x33, 0x04, 0, 0, 0, 0, 0, 0]] := by
  decide +kernel

/-- Section 6: infinity and a count that is not positive; a bit count above 2^63 - 1. -/
theorem test_size_failures :
    responsesOf (exec (.size 5 0x7FF0000000000000) State.reset) = [[1, 0, 0, 0]] ∧
    responsesOf (exec (.size 0 0x3FE0000000000000) State.reset) = [[1, 0, 0, 0]] ∧
    responsesOf (exec (.size 0x4000000000000000 0x3FB999999999999A) State.reset) =
      [[4, 0, 0, 0]] := by decide +kernel

/-- P3, step 2. -/
theorem test_newsz :
    exec (.newsz 10 0x3F50624DD2F1A9FC 0x9747b28c) State.reset =
      .next { State.reset with
        context := some { bitCount := 144, hashCount := 10, seed := 0x9747b28c,
                          tol := 0x3F50624DD2F1A9FC, itemCount := 10, nbytes := 18, bits := [] },
        responses := [[0, 0, 0, 0, 0x90, 0, 0, 0, 0, 0, 0, 0, 0x0a, 0, 0, 0, 0, 0, 0, 0]] } := by
  have h : sizeBits State.reset.config 10 0x3F50624DD2F1A9FC = 144 := by decide +kernel
  have hk : sizeHashes State.reset.config 144 10 = 10 := by decide +kernel
  simp only [exec, execNewsz]
  rw [if_neg (by decide), if_neg (by decide)]
  rw [show natCount (10 : I64) = 10 by decide, h, hk]
  rfl

/-- P5, steps 3 and 4: an empty item list; a tolerance of exactly 1. -/
theorem test_newsz_failures :
    responsesOf (exec (.newsz 0 0x3F847AE147AE147B 0) State.reset) = [[1, 0, 0, 0]] ∧
    responsesOf (exec (.newsz 5 0x3FF0000000000000 0) State.reset) = [[1, 0, 0, 0]] := by decide

/-- P1, step 1: 18 bytes of zeros. -/
theorem test_newex :
    bytesOf (exec (.newex 144 10 10 0x3F1A36E2EB1C432D 0xe9a500b4) State.reset) =
      some (List.replicate 18 0) := by decide

/-- 95_test_vectors.md, "Capacity": MAXBYTES = 1024. -/
theorem test_newex_capacity :
    responsesOf (exec (.newex 8200 1 0 0x3FE0000000000000 0)
      { State.reset with config := { maxBytes := 1024, numerics := .exact } }) = [[3, 0, 0, 0]] ∧
    responsesOf (exec (.newex 8192 1 0 0x3FE0000000000000 0)
      { State.reset with config := { maxBytes := 1024, numerics := .exact } }) =
        [[0, 0, 0, 0]] := by decide

/-- P4, step 1: nine of the eighteen bytes are accepted and flagged. -/
theorem test_load_mismatch :
    responsesOf (exec (.load 144 10 10 0x3F1A36E2EB1C432D 0xe9a500b4 (scenarioBytes.take 9))
      State.reset) = [[0, 0, 0, 0, 1, 0, 0, 0]] := by decide

/-- P5, step 10: the empty buffer. -/
theorem test_load_empty :
    responsesOf (exec (.load 8 1 0 0x3FE0000000000000 0 []) State.reset) = [[1, 0, 0, 0]] := by decide

/-- R189's example. -/
theorem test_add :
    bytesOf (exec (.add (ascii "example.com")) (holding (scenario (List.replicate 18 0)))) =
      some [0, 0, 0, 0, 0x04, 0x44, 0x40, 0x04, 0, 0, 0, 0, 0x10, 0, 0x01, 0x11, 0, 0x01] := by decide

/-- P5, step 1. -/
theorem test_add_noFilter : answer [0x53, 0, 0, 0, 1, 0, 0, 0, 0x61] = [[2, 0, 0, 0]] := by decide

/-- P2, steps 11, 12 and 14. -/
theorem test_contains :
    responsesOf (exec (.contains (ascii "example10.com/resource?query=bugs"))
      (holding (scenario scenarioBytes))) = [[0, 0, 0, 0, 1, 0, 0, 0]] ∧
    responsesOf (exec (.contains (ascii "example10.com")) (holding (scenario scenarioBytes))) =
      [[0, 0, 0, 0, 0, 0, 0, 0]] ∧
    responsesOf (exec (.contains []) (holding (scenario scenarioBytes))) =
      [[0, 0, 0, 0, 0, 0, 0, 0]] := by decide +kernel

/-- P4, step 3: a derived index outside the buffer answers 0. -/
theorem test_contains_short :
    responsesOf (exec (.contains (ascii "example.com")) (holding (scenario (scenarioBytes.take 9)))) =
      [[0, 0, 0, 0, 0, 0, 0, 0]] := by decide

/-- R191's example. -/
theorem test_rdpar :
    responsesOf (exec .rdpar (holding (scenario scenarioBytes))) =
      [[0, 0, 0, 0, 0x90, 0, 0, 0, 0, 0, 0, 0, 0x0a, 0, 0, 0, 0, 0, 0, 0, 0x0a, 0, 0, 0, 0, 0, 0, 0,
        0x2d, 0x43, 0x1c, 0xeb, 0xe2, 0x36, 0x1a, 0x3f, 0xb4, 0, 0xa5, 0xe9, 0x12, 0, 0, 0]] := by
  decide

/-! ### The assembler (R92, R93; the commands of 95_test_vectors.md section 9) -/

theorem test_assemble_commands :
    assembleLine "NEWEX 144, 10, 10, 0.0001, 0xe9a500b4 ; the scenario".toList =
      some [.newex 144 10 10 0x3F1A36E2EB1C432D 0xe9a500b4] ∧
    assembleLine "NEWSZ 10, 0.001".toList = some [.newsz 10 0x3F50624DD2F1A9FC 0x9747b28c] ∧
    assembleLine "GETBIT -1".toList = some [.getbit (-1)] ∧
    assembleLine "SIZE 5, f64:0x7FF0000000000000".toList = some [.size 5 0x7FF0000000000000] := by decide +kernel

theorem test_assemble_items :
    assembleLine "LOAD 8, 1, 0, 0.5, 0, x\"0aFf\"".toList =
      some [.load 8 1 0 0x3FE0000000000000 0 [0x0a, 0xff]] ∧
    assembleLine "ADD \"é\\\"\\\\\"".toList = some [.add [0xc3, 0xa9, 0x22, 0x5c]] ∧
    assembleLine "ADD \"\\n\"".toList = none ∧ assembleLine "LOAD 8, 1, 0, 0.5, x\"\"".toList = none := by decide +kernel

/-- R93: n counts the items written, duplicates counted; with no item NEWSZ stands alone. -/
theorem test_assemble_build :
    assembleLine "BUILD 0.001 : \"a\", \"a\"".toList =
      some [.newsz 2 0x3F50624DD2F1A9FC 0x9747b28c, .add (ascii "a"), .add (ascii "a")] ∧
    assembleLine "BUILD 0.5, 0 :".toList = some [.newsz 0 0x3FE0000000000000 0] ∧
    assembleLine "BUILDX 8, 1, 0.5 : x\"\"".toList =
      some [.newex 8 1 1 0x3FE0000000000000 0x9747b28c, .add []] := by decide +kernel

/-- R263: no ADD is sent after a NEWSZ that failed. -/
theorem test_expansion_stops :
    responsesOf (runExpansion (build 0x3FF0000000000000 0 [ascii "a"]) State.reset) = [[1, 0, 0, 0]] := by
  decide

/-- Section 6's other tolerances: the nearest binary64 values. -/
theorem test_decimal_tolerances : nearestF64 99 100 = 0x3FEFAE147AE147AE ∧
    nearestF64 999999 1000000 = 0x3FEFFFFDE7210BE9 ∧ nearestF64 9 10 = 0x3FECCCCCCCCCCCCD ∧
    nearestF64 1 1000000 = 0x3EB0C6F7A0B5ED8D := by decide

/-! ### Witnesses: the hypotheses of each obligation can be met together -/

theorem witness_DecodeOfEncode :
    (Instr.load 1 1 0 1 0 []).wellFormed = true ∧ (Instr.load 1 1 0 1 0 [0xff]).wellFormed = true ∧
    (Instr.setbit (-1)).wellFormed = true := by decide

theorem witness_EncodeOfDecode : decode [0x54, 0, 0, 0, 0, 0, 0, 0] = .ok (.contains []) := by decide

/-- One legal packet and one illegal one. -/
theorem witness_LegalPackets : LegalPacket [0x32, 0, 0, 0] ∧ ¬ LegalPacket [0x33, 0, 0, 0] := by
  constructor
  · refine ⟨by decide, ?_, (0x32, 4, false), by decide, by decide, by decide, by decide⟩
    intro a h1 h3
    interval_cases a <;> rfl
  · rintro ⟨-, -, row, hrow, hop, -⟩
    revert row
    decide

theorem witness_StepRuns : (fed [[0x55, 0, 0, 0]]).resetIn = false ∧
    (fed [[0x55, 0, 0, 0]]).commands = [0x55, 0, 0, 0] :: [] ∧
    decode [0x55, 0, 0, 0] = .ok .rdpar := by decide

theorem witness_IllegalPackets : (fed [[]]).resetIn = false ∧ (fed [[]]).commands = [] :: [] ∧
    ¬ LegalPacket [] := by
  refine ⟨rfl, rfl, ?_⟩
  rintro ⟨h, -⟩
  exact absurd h (by decide)

theorem witness_Idle : State.reset.resetIn = false ∧ State.reset.commands = [] := by decide

theorem witness_ResetAlone : (holding smallFilter).assertReset.resetIn = true ∧
    (holding smallFilter).resetIn = false ∧ (holding smallFilter).valid = true ∧
    step (holding smallFilter) = .next (holding smallFilter) := ⟨rfl, rfl, rfl, rfl⟩

theorem witness_EveryCommandAnswersOnce : (fed [[5], [6]]).resetIn = false ∧
    (fed [[5], [6]]).commands = [5] :: [[6]] := by decide

theorem witness_FailureChangesNothing :
    exec .rdpar State.reset = .next { State.reset with responses := [[2, 0, 0, 0]] } ∧
    ({ State.reset with responses := [[2, 0, 0, 0]] } : State).responses =
      State.reset.responses ++ [[2, 0, 0, 0]] ∧ statusWord [2, 0, 0, 0] ≠ 0 := by
  refine ⟨rfl, rfl, by decide⟩

/-- Its second clause, with a packet that is no command. -/
theorem witness_FailureChangesNothing_step : (fed [[0x56, 0, 0, 0]]).resetIn = false ∧
    (fed [[0x56, 0, 0, 0]]).commands = [0x56, 0, 0, 0] :: [] ∧
    step (fed [[0x56, 0, 0, 0]]) = .next { State.reset with responses := [[5, 0, 0, 0]] } ∧
    statusWord [5, 0, 0, 0] ≠ 0 := by
  refine ⟨rfl, rfl, rfl, by decide⟩

/-- An illegal packet and a legal one on the command channel. -/
theorem witness_StatusFollowsThePriority : (fed [[0x33, 0, 0, 0]]).resetIn = false ∧
    (fed [[0x33, 0, 0, 0]]).commands = [0x33, 0, 0, 0] :: [] ∧
    (fed [[0x55, 0, 0, 0]]).commands = [0x55, 0, 0, 0] :: [] ∧ ¬ LegalPacket [0x33, 0, 0, 0] ∧
    decode [0x55, 0, 0, 0] = .ok .rdpar :=
  ⟨rfl, rfl, rfl, witness_LegalPackets.2, by decide⟩

theorem witness_NoFilter : (Instr.add []).needsFilter = true ∧ State.reset.context = none := by decide

theorem witness_QueuedCommands : State.reset.resetIn = false ∧ State.reset.commands = [] ∧
    ∀ i ∈ [Instr.newex 8 1 0 0x3FE0000000000000 0, .setbit 3, .rdbits], i.wellFormed = true := by decide

/-- Equal hashes from equal seeds; and different seeds do give different ones (section 3). -/
theorem witness_MurmurSeparatesSeeds : murmur [] 1 = murmur [] 1 ∧ murmur [] 0 ≠ murmur [] 1 := by
  decide

theorem witness_IndicesFollow : 1 ≤ (1 : Nat) ∧ (9 : Nat) < 10 ∧
    (indices (ascii "abc") 3 1 0) = [0, 0, 0] := by decide

/-- Each clause: a last index below the bit count, a filter of exact length, and the first index
outside a buffer. -/
theorem witness_DerivedIndices : 1 ≤ (144 : Nat) ∧ 136 ∈ indices (ascii "example.com") 10 144 0 ∧
    1 ≤ smallFilter.bitCount ∧ smallFilter.nbytes = (smallFilter.bitCount + 7) / 8 ∧
    filterIndices smallFilter [] = [1] ∧ smallFilter.nbytes ≤ 16 / 8 := by decide

theorem witness_FirstIndex : 1 ≤ (1 : Nat) ∧ murmur [] 0 = 0 ∧
    indices [] 2 144 0 = [133, 133] := by decide

/-- Both clauses at their boundaries. -/
theorem witness_IndicesAnswers : 0 < (1 : I64).toInt ∧ 0 ≤ (0 : I64).toInt ∧
    ((0 : I64).toInt ≤ 0 ∨ (0 : I64).toInt < 0) ∧ ((1 : I64).toInt ≤ 0 ∨ (-1 : I64).toInt < 0) := by
  decide

/-- The last index in range, the first beyond it, and a negative one. -/
theorem witness_Setbit : (holding smallFilter).context = some smallFilter ∧
    Memory.wf smallFilter.bits = true ∧
    (0 ≤ (15 : I64).toInt ∧ (15 : I64).toInt.toNat / 8 < smallFilter.nbytes) ∧
    smallFilter.nbytes ≤ (16 : I64).toInt.toNat / 8 ∧ (-1 : I64).toInt < 0 := by decide

/-- A filter is held, or none is; this is all that GETBIT, RDBITS and RDPAR ask for, and that the
NoFilter clauses of SETBIT, ADD and CONTAINS do. -/
theorem witness_Held : (holding smallFilter).context = some smallFilter ∧
    State.reset.context = none := by decide

theorem witness_GetbitAfterSetbit : (holding smallFilter).context = some smallFilter ∧
    Memory.wf smallFilter.bits = true ∧ 0 ≤ (15 : I64).toInt ∧
    (15 : I64).toInt.toNat / 8 < smallFilter.nbytes ∧
    isBitSet smallFilter 15 = false ∧ isBitSet smallFilter 7 = true := by decide

theorem witness_BitsOnlyGrow : (Instr.add []).isConstruction = false ∧
    (holding smallFilter).context = some smallFilter ∧ Memory.wf smallFilter.bits = true ∧
    isBitSet smallFilter (7 : I64).toInt = true := by decide

theorem witness_Parameters : (Instr.setbit 0).isConstruction = false ∧
    Instr.rdpar.isConstruction = false ∧ (∀ index, Instr.rdpar ≠ .setbit index) ∧
    (∀ item, Instr.rdpar ≠ .add item) ∧ (holding smallFilter).context = some smallFilter :=
  ⟨rfl, rfl, fun _ => by simp, fun _ => by simp, rfl⟩

theorem witness_ReadOnly : ruleReadOnly (.contains []) = true := rfl

theorem witness_UnitCommands : (Instr.size 1 1).needsFilter = false ∧
    (Instr.size 1 1).isConstruction = false := by decide

/-- The smallest count and the smallest tolerance. -/
theorem witness_SizeBits : State.reset.config.numerics = .exact ∧ 1 ≤ (1 : Nat) ∧
    toleranceOk 1 = true := by decide

/-- The largest counts. -/
theorem witness_SizeHashes : State.reset.config.numerics = .exact ∧ 1 ≤ maxCount ∧
    maxCount ≤ maxCount := by decide

/-- The smallest and the largest tolerance. -/
theorem witness_SizingIsMonotone : 1 ≤ maxCount ∧ toleranceOk 1 = true ∧
    toleranceOk 0x3FEFFFFFFFFFFFFF = true ∧ f64Real 1 ≤ f64Real 0x3FEFFFFFFFFFFFFF := by
  decide +kernel

theorem witness_SizesAreAtLeastOne : 1 ≤ (1 : Nat) := by decide

theorem witness_SizeAnswers : toleranceOk 0x3FEFFFFFFFFFFFFF = true ∧ 0 < (1 : I64).toInt ∧
    sizeBits State.reset.config (1 : I64).toInt.toNat 0x3FEFFFFFFFFFFFFF ≤ maxCount := by
  decide +kernel

/-- The failing clauses of SIZE and NEWSZ: tolerances of exactly 0 and 1, a count of 0, a bit count
above 2^63 - 1. -/
theorem witness_SizeAnswers_failures : toleranceOk 0 = false ∧
    toleranceOk 0x3FF0000000000000 = false ∧ (0 : I64).toInt ≤ 0 ∧
    toleranceOk 0x3FB999999999999A = true ∧ 0 < (0x4000000000000000 : I64).toInt ∧
    maxCount < sizeBits State.reset.config (0x4000000000000000 : I64).toInt.toNat
      0x3FB999999999999A := by decide +kernel

/-- 144 bits do not fit a bit memory of 17 bytes. -/
theorem witness_NewszAnswers_capacity :
    144 = sizeBits ⟨17, .exact⟩ (10 : I64).toInt.toNat 0x3F50624DD2F1A9FC ∧ 144 ≤ maxCount ∧
    (⟨17, .exact⟩ : Config).maxBytes < (144 + 7) / 8 := by decide +kernel

theorem witness_NewszAnswers : toleranceOk 0x3F50624DD2F1A9FC = true ∧ 0 < (10 : I64).toInt ∧
    144 = sizeBits State.reset.config (10 : I64).toInt.toNat 0x3F50624DD2F1A9FC ∧
    10 = sizeHashes State.reset.config 144 (10 : I64).toInt.toNat ∧ 144 ≤ maxCount ∧
    (144 + 7) / 8 ≤ State.reset.config.maxBytes := by decide +kernel

/-- With a bit memory of one byte. -/
theorem witness_NewexAnswers : toleranceOk 1 = true ∧ 0 < (8 : I64).toInt ∧ 0 < (1 : I64).toInt ∧
    0 ≤ (0 : I64).toInt ∧ ((8 : I64).toInt.toNat + 7) / 8 ≤ (⟨1, .exact⟩ : Config).maxBytes := by decide

/-- The failing clauses: a bad tolerance, counts of 0, an item count of -1; nine bits in one byte. -/
theorem witness_NewexAnswers_failures : toleranceOk 0 = false ∧ (0 : I64).toInt ≤ 0 ∧
    (-1 : I64).toInt < 0 ∧ toleranceOk 1 = true ∧ 0 < (9 : I64).toInt ∧
    (⟨1, .exact⟩ : Config).maxBytes < ((9 : I64).toInt.toNat + 7) / 8 := by decide

/-- A buffer of three bytes does not fit two. -/
theorem witness_LoadAnswers_capacity : ([0, 0, 0] : Packet) ≠ [] ∧ toleranceOk 1 = true ∧
    0 < (8 : I64).toInt ∧ 0 < (1 : I64).toInt ∧ 0 ≤ (0 : I64).toInt ∧
    (⟨2, .exact⟩ : Config).maxBytes < ([0, 0, 0] : Packet).length := by decide

/-- A buffer of the right length and one too long, in a bit memory of two bytes. -/
theorem witness_LoadAnswers : ([0] : Packet) ≠ [] ∧ toleranceOk 1 = true ∧ 0 < (8 : I64).toInt ∧
    0 < (1 : I64).toInt ∧ 0 ≤ (0 : I64).toInt ∧
    ([0, 0] : Packet).length ≤ (⟨2, .exact⟩ : Config).maxBytes ∧
    ([0] : Packet).length = ((8 : I64).toInt.toNat + 7) / 8 ∧
    ([0, 0] : Packet).length ≠ ((8 : I64).toInt.toNat + 7) / 8 := by decide

/-- A construction that fails and one that succeeds. -/
theorem witness_Construction : (Instr.newsz 0 0 0).isConstruction = true ∧
    (Instr.newex 8 1 0 1 0).isConstruction = true ∧ statusWord [1, 0, 0, 0] ≠ 0 ∧
    statusWord [0, 0, 0, 0] = 0 ∧
    responsesOf (exec (.newsz 0 0 0) State.reset) = [[1, 0, 0, 0]] ∧
    responsesOf (exec (.newex 8 1 0 1 0) State.reset) = [[0, 0, 0, 0]] := by decide

theorem witness_AddAnswers : (holding smallFilter).context = some smallFilter ∧
    Memory.wf smallFilter.bits = true := by decide

/-- An item with all its bits set, and one without. -/
theorem witness_ContainsAnswers :
    (holding (scenario scenarioBytes)).context = some (scenario scenarioBytes) ∧
    (∀ i ∈ indices (ascii "example.com") 10 144 0xe9a500b4, i / 8 < (scenario scenarioBytes).nbytes ∧
      (memRead (scenario scenarioBytes) (i / 8)).getLsbD (i % 8) = true) ∧
    (∃ i ∈ indices [] 10 144 0xe9a500b4, ¬ (i / 8 < (scenario scenarioBytes).nbytes ∧
      (memRead (scenario scenarioBytes) (i / 8)).getLsbD (i % 8) = true)) := by
  decide +kernel

/-- A short buffer that holds all of one item's indices: example9.com's are at most 44 (section 1). -/
theorem witness_NoFalseNegatives_item :
    (holding (scenario (scenarioBytes.take 6))).context = some (scenario (scenarioBytes.take 6)) ∧
    Memory.wf (scenario (scenarioBytes.take 6)).bits = true ∧
    (scenario (scenarioBytes.take 6)).covers = false ∧
    (∀ i ∈ indices (ascii "example9.com") 10 144 0xe9a500b4,
      i / 8 < (scenario (scenarioBytes.take 6)).nbytes) ∧
    ∀ i ∈ [Instr.setbit 3, .rdbits], i.isConstruction = false := by decide +kernel

theorem witness_NoFalseNegatives : (holding smallFilter).context = some smallFilter ∧
    Memory.wf smallFilter.bits = true ∧ 1 ≤ smallFilter.bitCount ∧ smallFilter.covers = true ∧
    ∀ i ∈ [Instr.add (ascii "a"), .setbit 3, .rdbits], i.isConstruction = false := by decide

theorem witness_Idempotence : (holding smallFilter).context = some smallFilter ∧
    Memory.wf smallFilter.bits = true ∧
    Memory.below smallFilter.nbytes smallFilter.bits = true := by decide

theorem witness_AddOrder : (holding smallFilter).context = some smallFilter ∧
    Memory.wf smallFilter.bits = true ∧ Memory.below smallFilter.nbytes smallFilter.bits = true ∧
    [ascii "a", ascii "b"].Perm [ascii "b", ascii "a"] :=
  ⟨rfl, rfl, rfl, List.Perm.swap _ _ _⟩

/-- A filter of exact length and a short one, on a CORE with just enough memory. -/
theorem witness_SaveAndLoad : (holding (scenario scenarioBytes)).wf = true ∧
    (holding (scenario (scenarioBytes.take 9))).wf = true ∧
    (holding (scenario scenarioBytes)).context = some (scenario scenarioBytes) ∧
    (scenario scenarioBytes).nbytes ≤ (⟨18, .exact⟩ : Config).maxBytes := by decide +kernel

theorem witness_Build : toleranceOk 0x3FF0000000000000 = false ∧
    toleranceOk 0x3F50624DD2F1A9FC = true ∧ [ascii "a", ascii "a"] ≠ [] ∧
    [ascii "a", ascii "a"].length ≤ maxCount ∧
    sizeBits State.reset.config 2 0x3F50624DD2F1A9FC ≤ maxCount ∧
    (sizeBits State.reset.config 2 0x3F50624DD2F1A9FC + 7) / 8 ≤ State.reset.config.maxBytes := by
  decide +kernel

/-- A bit count above 2^63 - 1 (section 6, SIZE of 2^62 items). -/
theorem witness_Build_unrepresentable : ∃ items : List Packet, items ≠ [] ∧
    items.length ≤ maxCount ∧ toleranceOk 0x3FB999999999999A = true ∧
    maxCount < sizeBits State.reset.config items.length 0x3FB999999999999A := by
  obtain ⟨items, h⟩ : ∃ items : List Packet, items.length = 0x4000000000000000 :=
    ⟨List.replicate _ [], List.length_replicate⟩
  refine ⟨items, ?_, ?_, by decide, ?_⟩
  · rintro rfl
    exact absurd h (by decide)
  · rw [h]
    decide
  · rw [h]
    decide +kernel

/-- 29 bits in a bit memory of three bytes. -/
theorem witness_Build_capacity : toleranceOk 0x3F50624DD2F1A9FC = true ∧
    [ascii "a", ascii "b"] ≠ [] ∧ [ascii "a", ascii "b"].length ≤ maxCount ∧
    sizeBits ⟨3, .exact⟩ [ascii "a", ascii "b"].length 0x3F50624DD2F1A9FC ≤ maxCount ∧
    (⟨3, .exact⟩ : Config).maxBytes <
      (sizeBits ⟨3, .exact⟩ [ascii "a", ascii "b"].length 0x3F50624DD2F1A9FC + 7) / 8 := by
  decide +kernel

/-- Program P4. -/
theorem witness_ShortBuffer :
    (holding (scenario (scenarioBytes.take 9))).context = some (scenario (scenarioBytes.take 9)) ∧
    ∃ i ∈ filterIndices (scenario (scenarioBytes.take 9)) (ascii "example.com"),
      (scenario (scenarioBytes.take 9)).nbytes ≤ i / 8 := by decide +kernel

/-- An empty filter, and a full one. -/
theorem witness_EmptyAndFull :
    1 ≤ (scenario (List.replicate 18 0)).bitCount ∧ 1 ≤ (scenario (List.replicate 18 0)).hashCount ∧ (∀ a, a < (scenario (List.replicate 18 0)).nbytes →
      memRead (scenario (List.replicate 18 0)) a = 0x00) ∧
    (∀ a, a < (scenario (List.replicate 18 0xff)).nbytes →
      memRead (scenario (List.replicate 18 0xff)) a = 0xff) ∧
    (scenario (List.replicate 18 0xff)).covers = true := by
  decide +kernel

theorem witness_Padding : (holding smallFilter).context = some smallFilter ∧
    Memory.wf smallFilter.bits = true ∧ 1 ≤ smallFilter.bitCount ∧ smallFilter.bitCount ≤ 12 := by decide

theorem witness_Reporting : Instr.add [] ≠ .rdpar ∧ (Instr.add []).isConstruction = false := by decide

theorem witness_StepKeepsStatesLegal : (holding smallFilter).wf = true ∧
    step (holding smallFilter) = .next (holding smallFilter) := by
  refine ⟨by decide, rfl⟩

theorem witness_Reachable : (⟨1, .substitute⟩ : Config).wf = true ∧
    Reachable ⟨1, .substitute⟩ (({ State.reset with config := ⟨1, .substitute⟩ } : State).submit []) :=
  ⟨by decide, .submit _ .reset⟩

/-- NEWEX of 12 bits, then a SETBIT. -/
theorem witness_FreshBuffers :
    (∃ bitCount hashCount itemCount tol seed,
      Instr.newex 12 1 0 0x3FE0000000000000 0 = .newex bitCount hashCount itemCount tol seed) ∧
    State.reset.context = none ∧ (∀ j ∈ [Instr.setbit 0], j.isConstruction = false) ∧
    ∃ t f, execAll (.newex 12 1 0 0x3FE0000000000000 0 :: [.setbit 0]) State.reset = .next t ∧
      t.context = some f :=
  ⟨⟨_, _, _, _, _, rfl⟩, rfl, by decide, _, _, rfl, rfl⟩

end Sys2Proof.Tests
end

section
/-! Proofs of the scope statements: a step runs the command it decodes (R8, R80), the commands that
write no state (R89), and the states that can be reached are legal (R20). The last is an invariant: every
operation of a step and every move of the host keeps a legal state legal. -/

namespace Sys2Proof.Machine

/-! ### Legal filters and legal states, field by field -/

theorem FilterContext.wf_iff (c : Config) (f : FilterContext) : f.wf c = true ↔
    (1 ≤ f.bitCount ∧ f.bitCount ≤ maxCount) ∧ (1 ≤ f.hashCount ∧ f.hashCount ≤ maxCount) ∧
    f.itemCount ≤ maxCount ∧ toleranceOk f.tol = true ∧ (1 ≤ f.nbytes ∧ f.nbytes ≤ c.maxBytes) ∧
    Memory.wf f.bits = true ∧ Memory.below f.nbytes f.bits = true := by
  simp [FilterContext.wf, and_assoc]

theorem State.wf_iff (s : State) : s.wf = true ↔
    s.config.wf = true ∧ (∀ f, s.context = some f → f.wf s.config = true) ∧
    ∀ r ∈ s.responses, legalResponse r = true := by
  simp [State.wf, Option.all_eq_true, and_assoc]

/-! ### The operations of a step keep legal data legal -/

/-- Setting bits keeps a legal filter legal. -/
theorem FilterContext.wf_setBits {c : Config} {f : FilterContext} (is : List Nat)
    (h : f.wf c = true) : (setBits f is).wf c = true := by
  obtain ⟨hb, hk, hi, ht, hn, hm, hlo⟩ := (wf_iff c f).1 h
  rw [wf_iff]
  simp [hb, hk, hi, ht, hn, setBits_wf is hm, setBits_below is hlo]

theorem State.wf_emit {s : State} {r : Packet} (hs : s.wf = true) (hr : legalResponse r = true) :
    (emit r s).wf = true := by
  obtain ⟨hc, hf, hl⟩ := s.wf_iff.1 hs
  refine (emit r s).wf_iff.2 ⟨hc, hf, ?_⟩
  simpa [or_imp, forall_and, hr] using hl

theorem State.wf_hold {s : State} {f : FilterContext} (hs : s.wf = true)
    (hf : f.wf s.config = true) : (hold f s).wf = true := by
  obtain ⟨hc, -, hl⟩ := s.wf_iff.1 hs
  exact (hold f s).wf_iff.2 ⟨hc, by simpa using hf, hl⟩

theorem State.wf_takeResponse {s : State} (hs : s.wf = true) : s.takeResponse.wf = true := by
  obtain ⟨hc, hf, hl⟩ := s.wf_iff.1 hs
  exact s.takeResponse.wf_iff.2 ⟨hc, hf, fun r hr => hl r (List.mem_of_mem_tail hr)⟩

theorem State.wf_resetState {s : State} (hc : s.config.wf = true) : (resetState s).wf = true :=
  (resetState s).wf_iff.2 ⟨hc, by simp, by simp⟩

/-! ### What the SizingPolicy and the operand tests promise of a filter's registers -/

theorem ceilDiv_le {a b c : Nat} (hb : 0 < b) (h : a ≤ c * b) : ceilDiv a b ≤ c := by
  rw [ceilDiv, ← Nat.lt_succ_iff, Nat.div_lt_iff_lt_mul hb, Nat.succ_mul]
  omega

theorem ln2High_le : ln2High ≤ 2 ^ logBits := by decide +kernel

theorem exactBits_pos (n : Nat) (t : F64) : 1 ≤ exactBits n t := by
  unfold exactBits
  split
  · exact le_max_left _ _
  · rw [(realBits n t).property]
    exact le_max_left _ _

theorem substituteBits_pos (n d : Nat) : 1 ≤ substituteBits n d := by
  induction d with
  | zero => exact le_rfl
  | succ d ih => exact Nat.le_add_right_of_le ih

/-- `SizeBits` is at least 1 (R172, R174). -/
theorem sizeBits_pos (c : Config) (n : Nat) (t : F64) : 1 ≤ sizeBits c n t := by
  unfold sizeBits
  split
  · exact exactBits_pos n t
  · exact substituteBits_pos n _

theorem exactHashes_le {m n : Nat} (hm : 1 ≤ m) (hn : 1 ≤ n) : exactHashes m n ≤ m := by
  refine max_le hm (ceilDiv_le (by positivity) ?_)
  exact Nat.mul_le_mul_left m (ln2High_le.trans (Nat.le_mul_of_pos_left _ hn))

theorem substituteHashes_le {m : Nat} (hm : 1 ≤ m) (n : Nat) : substituteHashes m n ≤ m := by
  have := Nat.mod_lt (Config.substituteHash m n) hm
  unfold substituteHashes
  omega

/-- `SizeHashes(m, n)` lies between 1 and `m` (R173). -/
theorem sizeHashes_bounds (c : Config) {m n : Nat} (hm : 1 ≤ m) (hn : 1 ≤ n) :
    1 ≤ sizeHashes c m n ∧ sizeHashes c m n ≤ m := by
  unfold sizeHashes
  split
  · exact ⟨le_max_left _ _, exactHashes_le hm hn⟩
  · exact ⟨Nat.le_add_right _ _, substituteHashes_le hm n⟩

theorem bufferLength_pos {m : Nat} (h : 1 ≤ m) : 1 ≤ bufferLength m := by
  unfold bufferLength
  omega

theorem natCount_pos {v : I64} (h : 0 < v.toInt) : 1 ≤ natCount v := by
  unfold natCount
  omega

theorem natCount_le_maxCount (v : I64) : natCount v ≤ maxCount := natCount_le v

/-! ### What a command can do to the context -/

/-- A command whose row in R89 says that it writes no state only answers. -/
theorem exec_readOnly {i : Instr} (h : ruleReadOnly i = true) (s : State) :
    ∃ r, exec i s = .next (emit r s) := by
  cases i <;> simp only [exec]
  case fnv1a item => exact ⟨_, rfl⟩
  case murmur3 seed item => exact ⟨_, rfl⟩
  case indices hashCount bitCount seed item =>
    unfold execIndices
    split
    · exact ⟨_, rfl⟩
    split <;> exact ⟨_, rfl⟩
  case getbit index => unfold execGetbit; split <;> exact ⟨_, rfl⟩
  case rdbits => unfold execRdbits; split <;> exact ⟨_, rfl⟩
  case size n tol =>
    unfold execSize
    split
    · exact ⟨_, rfl⟩
    split
    · exact ⟨_, rfl⟩
    dsimp only
    split <;> exact ⟨_, rfl⟩
  case contains item => unfold execContains; split <;> exact ⟨_, rfl⟩
  case rdpar => unfold execRdpar; split <;> exact ⟨_, rfl⟩
  all_goals cases h

/-- One `SetBit` is a sequence of none or one bit: a negative index is out of range (R57, R150). -/
theorem setBit_eq_setBits (f : FilterContext) (i : Int) : ∃ is, setBit f i = setBits f is := by
  by_cases hi : 0 ≤ i
  · exact ⟨[i.toNat], by rw [setBits_cons, setBits_nil, Int.toNat_of_nonneg hi]⟩
  · exact ⟨[], setBit_outOfRange (by simp [inRange, hi])⟩

/-- A command that is no construction only answers, or answers and sets bits of the held filter. -/
theorem exec_noConstruction {i : Instr} (h : i.isConstruction = false) (s : State) :
    (∃ r, exec i s = .next (emit r s)) ∨
    ∃ r f is, s.context = some f ∧ exec i s = .next (emit r (hold (setBits f is) s)) := by
  cases i
  case setbit index =>
    simp only [exec, execSetbit]
    split
    · exact .inl ⟨_, rfl⟩
    next f hf =>
      obtain ⟨is, his⟩ := setBit_eq_setBits f (count index)
      exact .inr ⟨_, f, is, hf, by rw [his]; rfl⟩
  case add item =>
    simp only [exec, execAdd]
    split
    · exact .inl ⟨_, rfl⟩
    next f hf => exact .inr ⟨_, f, _, hf, rfl⟩
  case newsz | newex | load => cases h
  all_goals exact .inl (exec_readOnly rfl s)

/-- NEWSZ only answers, or answers and holds a legal filter (R186). -/
theorem execNewsz_cases (n : I64) (tol : F64) (seed : U32) (s : State) :
    (∃ r, execNewsz n tol seed s = .next (emit r s)) ∨
    ∃ r f, f.wf s.config = true ∧ execNewsz n tol seed s = .next (emit r (hold f s)) := by
  unfold execNewsz
  split
  · exact .inl ⟨_, rfl⟩
  next htol =>
  split
  · exact .inl ⟨_, rfl⟩
  next hn =>
  dsimp only
  split
  · exact .inl ⟨_, rfl⟩
  next hrep =>
  split
  · exact .inl ⟨_, rfl⟩
  next hcap =>
  have hm := sizeBits_pos s.config (natCount n) tol
  have hmax : sizeBits s.config (natCount n) tol ≤ maxCount :=
    (representable_iff _).1 (by simpa using hrep)
  obtain ⟨hk, hkm⟩ := sizeHashes_bounds s.config hm (natCount_pos (not_le.1 hn))
  refine .inr ⟨_, _, (FilterContext.wf_iff _ _).2 ?_, rfl⟩
  exact ⟨⟨hm, hmax⟩, ⟨hk, hkm.trans hmax⟩, natCount_le_maxCount n, by simpa using htol,
    ⟨bufferLength_pos hm, by simpa [exceedsCapacity_iff] using hcap⟩, rfl, rfl⟩

/-- NEWEX only answers, or answers and holds a legal filter (R187). -/
theorem execNewex_cases (bitCount hashCount itemCount : I64) (tol : F64) (seed : U32) (s : State) :
    (∃ r, execNewex bitCount hashCount itemCount tol seed s = .next (emit r s)) ∨
    ∃ r f, f.wf s.config = true ∧
      execNewex bitCount hashCount itemCount tol seed s = .next (emit r (hold f s)) := by
  unfold execNewex
  split
  · exact .inl ⟨_, rfl⟩
  next hok =>
  split
  · exact .inl ⟨_, rfl⟩
  next hcap =>
  obtain ⟨htol, hb, hk, -⟩ :=
    (explicitCountsOk_iff bitCount hashCount itemCount tol).1 (by simpa using hok)
  refine .inr ⟨_, _, (FilterContext.wf_iff _ _).2 ?_, rfl⟩
  exact ⟨⟨natCount_pos hb, natCount_le_maxCount _⟩, ⟨natCount_pos hk, natCount_le_maxCount _⟩,
    natCount_le_maxCount _, htol,
    ⟨bufferLength_pos (natCount_pos hb), by simpa [exceedsCapacity_iff] using hcap⟩, rfl, rfl⟩

/-- LOAD only answers, or answers and holds a legal filter (R188). -/
theorem execLoad_cases (bitCount hashCount itemCount : I64) (tol : F64) (seed : U32)
    (bytes : Packet) (s : State) :
    (∃ r, execLoad bitCount hashCount itemCount tol seed bytes s = .next (emit r s)) ∨
    ∃ r f, f.wf s.config = true ∧
      execLoad bitCount hashCount itemCount tol seed bytes s = .next (emit r (hold f s)) := by
  unfold execLoad
  split
  · exact .inl ⟨_, rfl⟩
  next hne =>
  split
  · exact .inl ⟨_, rfl⟩
  next hok =>
  split
  · exact .inl ⟨_, rfl⟩
  next hcap =>
  obtain ⟨htol, hb, hk, -⟩ :=
    (explicitCountsOk_iff bitCount hashCount itemCount tol).1 (by simpa using hok)
  have hbelow : Memory.below bytes.length (Memory.ofBytes 0 bytes) = true := by
    simpa using Memory.below_ofBytes 0 bytes
  refine .inr ⟨_, _, (FilterContext.wf_iff _ _).2 ?_, rfl⟩
  exact ⟨⟨natCount_pos hb, natCount_le_maxCount _⟩, ⟨natCount_pos hk, natCount_le_maxCount _⟩,
    natCount_le_maxCount _, htol,
    ⟨Nat.pos_of_ne_zero hne, by simpa [exceedsCapacity_iff] using hcap⟩,
    Memory.wf_ofBytes bytes, hbelow⟩

/-- A construction only answers, or answers and holds a legal filter (R185). -/
theorem exec_construction {i : Instr} (h : i.isConstruction = true) (s : State) :
    (∃ r, exec i s = .next (emit r s)) ∨
    ∃ r f, f.wf s.config = true ∧ exec i s = .next (emit r (hold f s)) := by
  cases i
  case newsz n tol seed => exact execNewsz_cases n tol seed s
  case newex bitCount hashCount itemCount tol seed =>
    exact execNewex_cases bitCount hashCount itemCount tol seed s
  case load bitCount hashCount itemCount tol seed bytes =>
    exact execLoad_cases bitCount hashCount itemCount tol seed bytes s
  all_goals cases h

/-- Whatever the command, its response is a legal packet (R86, R87) and the context is kept or
replaced; the rest of the state stays. -/
theorem exec_answers (i : Instr) (s : State) :
    ∃ r t, legalResponse r = true ∧ exec i s = .next (emit r t) ∧ (t = s ∨ ∃ f, t = hold f s) := by
  obtain ⟨st, -, h⟩ | ⟨results, h⟩ | ⟨results, f, h⟩ := exec_cases i s
  · exact ⟨_, s, legalResponse_failurePacket st, h, .inl rfl⟩
  · exact ⟨_, s, legalResponse_okPacket results, h, .inl rfl⟩
  · exact ⟨_, hold f s, legalResponse_okPacket results, h, .inr ⟨f, rfl⟩⟩

/-- From a legal state a command leaves a legal filter, if any. -/
theorem exec_context_wf {i : Instr} {s t : State} {f : FilterContext} (hs : s.wf = true)
    (h : exec i s = .next t) (hf : t.context = some f) : f.wf s.config = true := by
  obtain ⟨-, hold_wf, -⟩ := s.wf_iff.1 hs
  cases hc : i.isConstruction with
  | true =>
    obtain ⟨r, he⟩ | ⟨r, g, hg, he⟩ := exec_construction hc s
    · cases h.symm.trans he
      exact hold_wf f hf
    · cases h.symm.trans he
      cases hf
      exact hg
  | false =>
    obtain ⟨r, he⟩ | ⟨r, g, is, hg, he⟩ := exec_noConstruction hc s
    · cases h.symm.trans he
      exact hold_wf f hf
    · cases h.symm.trans he
      cases hf
      exact FilterContext.wf_setBits is (hold_wf g hg)

/-! ### The invariant -/

/-- Every command ends, with the parameters kept and a legal state left legal. -/
theorem exec_keeps_wf (i : Instr) {s : State} (hs : s.wf = true) :
    ∃ t, exec i s = .next t ∧ t.wf = true ∧ t.config = s.config := by
  obtain ⟨r, t, hr, he, rfl | ⟨f, rfl⟩⟩ := exec_answers i s
  · exact ⟨_, he, State.wf_emit hs hr, rfl⟩
  · have hf : f.wf s.config = true := exec_context_wf hs he rfl
    exact ⟨_, he, State.wf_emit (State.wf_hold hs hf) hr, rfl⟩

/-- Every step answers a next state, keeps the parameters and keeps a legal state legal. -/
theorem step_keeps_wf {s : State} (hs : s.wf = true) :
    ∃ t, step s = .next t ∧ t.wf = true ∧ t.config = s.config := by
  have hpop : s.popCommand.wf = true := hs
  obtain ⟨-, h⟩ | ⟨-, -, h⟩ | ⟨p, rest, e, -, -, -, h⟩ | ⟨p, rest, i, -, -, -, h⟩ := step_cases s
  · exact ⟨_, h, State.wf_resetState (s.wf_iff.1 hs).1, rfl⟩
  · exact ⟨_, h, hs, rfl⟩
  · exact ⟨_, h, State.wf_emit hpop (legalResponse_failurePacket _), rfl⟩
  · rw [h]
    exact exec_keeps_wf i hpop

/-- Every reachable state is legal and keeps its parameters. -/
theorem Reachable.wf_config {c : Config} {s : State} (hc : c.wf = true) (h : Reachable c s) :
    s.wf = true ∧ s.config = c := by
  induction h with
  | reset => exact ⟨State.wf_resetState (s := { State.reset with config := c }) hc, rfl⟩
  | step _ hstep ih =>
    obtain ⟨hwf, hcfg⟩ := ih
    obtain ⟨u, hu, huwf, hucfg⟩ := step_keeps_wf hwf
    cases hstep.symm.trans hu
    exact ⟨huwf, hucfg.trans hcfg⟩
  | submit p _ ih => exact ih
  | takeResponse _ ih => exact ⟨State.wf_takeResponse ih.1, ih.2⟩
  | assertReset _ ih => exact ih

/-! ### The statements -/

/-- Settles O59: `step_keeps_wf` and the host's moves make legality an invariant of every run. -/
theorem reachableStatesAreLegal : Obligations.ReachableStatesAreLegal := by
  intro c s hc h
  obtain ⟨hwf, hcfg⟩ := h.wf_config hc
  obtain ⟨t, ht, -, -⟩ := step_keeps_wf hwf
  exact ⟨hwf, hcfg, t, ht⟩

/-- Settles O31, by `exec_readOnly`; the statement writes `emit` out. -/
theorem readOnlyCommandsWriteNothing : Obligations.ReadOnlyCommandsWriteNothing :=
  fun _ s h => exec_readOnly h s

/-- Settles O6, by `step_cases`: its other three cases have reset asserted, no packet, or a packet that
is no command. -/
theorem stepRunsDecodedCommand : Obligations.StepRunsDecodedCommand := by
  intro s p rest i hreset hcmd hdec
  have hpop : s.popCommand = { s with commands := rest } := by simp [State.popCommand, hcmd]
  rw [← hpop]
  obtain ⟨hr, -⟩ | ⟨-, hnil, -⟩ | ⟨q, rest', e, -, hq, he, -⟩ | ⟨q, rest', j, -, hq, hj, hstep⟩ :=
    step_cases s
  · simp [hreset] at hr
  · simp [hcmd] at hnil
  · cases hcmd.symm.trans hq
    cases hdec.symm.trans he
  · cases hcmd.symm.trans hq
    cases hdec.symm.trans hj
    exact hstep

end Sys2Proof.Machine
end

section
/-! Proofs of the state statements: reset (R260), what commands between constructions keep (R32 to
R34), the registers that are for reporting only (R24, R25), and the container (R37). -/

namespace Sys2Proof.Machine

/-! ### Legal states, reset and VALID -/

/-- Settles O57, by `step_keeps_wf`. -/
theorem stepKeepsStatesLegal : Obligations.StepKeepsStatesLegal := by
  intro s t hs h
  obtain ⟨u, hu, huwf, -⟩ := step_keeps_wf hs
  cases h.symm.trans hu
  exact huwf

/-- Settles O58: the reset state is one literal, so evaluation decides it. -/
theorem resetStateIsLegal : Obligations.ResetStateIsLegal := by
  unfold Obligations.ResetStateIsLegal
  decide

/-- No command drops the filter. -/
theorem exec_keeps_valid {i : Instr} {s t : State} (hv : s.valid = true)
    (h : exec i s = .next t) : t.valid = true := by
  obtain ⟨r, u, -, he, rfl | ⟨f, rfl⟩⟩ := exec_answers i s
  · cases h.symm.trans he
    exact hv
  · cases h.symm.trans he
    rfl

/-- Settles O9, by `step_cases`: a step that takes no reset keeps the context or executes a
command. -/
theorem resetAloneClearsValid : Obligations.ResetAloneClearsValid := by
  constructor
  · intro s hr
    exact ⟨resetState s, by simp [step, hr, takeReset], rfl, rfl, rfl, rfl, rfl⟩
  · intro s t hr hv h
    obtain ⟨hr', -⟩ | ⟨-, -, he⟩ | ⟨p, rest, e, -, -, -, he⟩ | ⟨p, rest, i, -, -, -, he⟩ :=
      step_cases s
    · simp [hr] at hr'
    · cases h.symm.trans he
      exact hv
    · cases h.symm.trans he
      exact hv
    · exact exec_keeps_valid (s := s.popCommand) hv (he.symm.trans h)

/-! ### What a command between constructions does to the held filter (R32, R33) -/

theorem hold_of_context {s : State} {f : FilterContext} (h : s.context = some f) :
    hold f s = s := by
  rw [hold, ← h]

theorem ruleReadOnly_of {i : Instr} (hc : i.isConstruction = false)
    (hset : ∀ index, i ≠ .setbit index) (hadd : ∀ item, i ≠ .add item) :
    ruleReadOnly i = true := by
  cases i
  case setbit index => exact absurd rfl (hset index)
  case add item => exact absurd rfl (hadd item)
  case newsz | newex | load => cases hc
  all_goals rfl

/-- With a filter held, a command that is no construction answers and sets bits of that filter, none
or some; nothing else changes. -/
theorem exec_held {i : Instr} {s : State} {f : FilterContext} (hc : i.isConstruction = false)
    (hf : s.context = some f) :
    ∃ r is, exec i s = .next (emit r (hold (setBits f is) s)) := by
  obtain ⟨r, he⟩ | ⟨r, g, is, hg, he⟩ := exec_noConstruction hc s
  · exact ⟨r, [], by rw [he, setBits_nil, hold_of_context hf]⟩
  · cases hf.symm.trans hg
    exact ⟨r, is, he⟩

/-- Settles O30, by `exec_held` and `exec_readOnly`. -/
theorem parametersAreImmutable : Obligations.ParametersAreImmutable := by
  intro i s f hc hf
  by_cases hro : ruleReadOnly i = true
  · obtain ⟨r, he⟩ := exec_readOnly hro s
    exact ⟨_, f, he, hf, rfl, fun _ _ => rfl⟩
  · obtain ⟨r, is, he⟩ := exec_held hc hf
    exact ⟨_, _, he, rfl, setBits_eq f is,
      fun hset hadd => absurd (ruleReadOnly_of hc hset hadd) hro⟩

/-- A byte that has the bit of a mask is not changed by it. -/
theorem or_maskOf {b : Byte} {i : Int} (h : b.getLsbD (i.toNat % 8) = true) :
    b ||| maskOf i = b := by
  apply BitVec.eq_of_getLsbD_eq
  intro k _
  rw [BitVec.getLsbD_or, getLsbD_maskOf]
  by_cases hk : k = i.toNat % 8
  · rw [hk, h, Bool.true_or]
  · simp [hk]

/-- Setting a bit that is set changes nothing (R155). -/
theorem setBit_of_isBitSet {f : FilterContext} {i : Int} (hm : Memory.wf f.bits = true)
    (h : isBitSet f i = true) : setBit f i = f := by
  have hbyte : memRead f (byteOf i) ||| maskOf i = memRead f (byteOf i) := by
    unfold isBitSet at h
    split at h
    · exact or_maskOf h
    · cases h
  have hread : ∀ a, memRead (setBit f i) a = memRead f a := by
    intro a
    rw [memRead_setBit i a hm]
    split
    next hc => rw [← hc.2, hbyte]
    next => rfl
  have hbits : (setBit f i).bits = f.bits := Memory.ext_of_read (setBit_wf i hm) hm hread
  rw [setBit_eq, hbits]

theorem exec_setbit {s : State} {f : FilterContext} (hf : s.context = some f) (index : I64) :
    exec (.setbit index) s = .next (emit (okPacket []) (hold (setBit f index.toInt) s)) := by
  simp only [exec, execSetbit, hf, respond]

/-- Settles O29: `exec_held` with `isBitSet_setBits`, then `setBit_of_isBitSet`. -/
theorem bitsOnlyGrow : Obligations.BitsOnlyGrow := by
  constructor
  · intro i s f hc hf hm
    obtain ⟨r, is, he⟩ := exec_held hc hf
    refine ⟨_, _, he, rfl, fun j hj => ?_⟩
    rw [isBitSet_setBits is j hm, hj, Bool.true_or]
  · intro s f index hf hm hbit
    refine ⟨_, exec_setbit hf index, ?_⟩
    rw [emit_context, hold_context, setBit_of_isBitSet hm hbit]

/-! ### A property that every command of a list keeps -/

/-- What holds before a list of commands and is kept by each of them holds after it. -/
theorem execAll_invariant {P : State → Prop} {is : List Instr} {s t : State}
    (keeps : ∀ i ∈ is, ∀ u v, P u → exec i u = .next v → P v) (hs : P s)
    (h : execAll is s = .next t) : P t := by
  induction is generalizing s with
  | nil =>
    cases h
    exact hs
  | cons i is ih =>
    obtain ⟨r, u, -, he, -⟩ := exec_answers i s
    have hu : P (emit r u) := keeps i (by simp) s _ hs he
    refine ih (fun j hj => keeps j (by simp [hj])) hu ?_
    rw [← h, execAll, he]

/-! ### Buffers of exact length (R26, R34) -/

/-- The held filter, if any, has a buffer of `ceil(BITCOUNT / 8)` bytes. -/
def State.BufferExact (s : State) : Prop :=
  ∀ f, s.context = some f → f.nbytes = bufferLength f.bitCount

theorem State.BufferExact.hold {f : FilterContext} (h : f.nbytes = bufferLength f.bitCount)
    (s : State) : (hold f s).BufferExact := by
  intro g hg
  cases hg
  exact h

theorem execNewsz_bufferExact {n : I64} {tol : F64} {seed : U32} {s t : State}
    (hs : s.BufferExact) (h : execNewsz n tol seed s = .next t) : t.BufferExact := by
  unfold execNewsz at h
  dsimp only at h
  split_ifs at h
  case neg =>
    cases h
    exact .hold rfl s
  all_goals
    cases h
    exact hs

theorem execNewex_bufferExact {bitCount hashCount itemCount : I64} {tol : F64} {seed : U32}
    {s t : State} (hs : s.BufferExact)
    (h : execNewex bitCount hashCount itemCount tol seed s = .next t) : t.BufferExact := by
  unfold execNewex at h
  split_ifs at h
  case neg =>
    cases h
    exact .hold rfl s
  all_goals
    cases h
    exact hs

theorem exec_noConstruction_bufferExact {i : Instr} {s t : State} (hc : i.isConstruction = false)
    (hs : s.BufferExact) (h : exec i s = .next t) : t.BufferExact := by
  obtain ⟨r, he⟩ | ⟨r, f, is, hf, he⟩ := exec_noConstruction hc s
  · cases h.symm.trans he
    exact hs
  · cases h.symm.trans he
    exact .hold (by simpa using hs f hf) s

/-- Settles O60: `BufferExact` holds of a CORE without a filter, and NEWSZ, NEWEX and every command
that is no construction keep it. -/
theorem freshBuffersStayExact : Obligations.FreshBuffersStayExact := by
  intro s t i is f hi hnone hc h hf
  have hs : s.BufferExact := by simp [State.BufferExact, hnone]
  refine execAll_invariant (P := State.BufferExact) (fun j hj u v hu hv => ?_) hs h f hf
  obtain rfl | hj := List.mem_cons.1 hj
  · obtain ⟨n, tol, seed, rfl⟩ | ⟨bitCount, hashCount, itemCount, tol, seed, rfl⟩ := hi
    · exact execNewsz_bufferExact hu hv
    · exact execNewex_bufferExact hu hv
  · exact exec_noConstruction_bufferExact (hc j hj) hu hv

/-! ### TOL and ITEMCOUNT are for reporting only (R24, R25) -/

/-- A filter with other values in the two registers that are for reporting only. -/
def FilterContext.relabel (f : FilterContext) (tol : F64) (itemCount : Nat) : FilterContext :=
  { f with tol := tol, itemCount := itemCount }

section
variable (f : FilterContext) (tol : F64) (itemCount : Nat)

@[simp] theorem inRange_relabel (i : Int) : inRange (f.relabel tol itemCount) i = inRange f i := rfl

theorem setBit_relabel (i : Int) :
    setBit (f.relabel tol itemCount) i = (setBit f i).relabel tol itemCount := by
  cases h : inRange f i with
  | true => simp only [setBit, inRange_relabel, h, if_true]; rfl
  | false => rw [setBit_outOfRange h, setBit_outOfRange (by simpa using h)]

theorem setBits_relabel (is : List Nat) :
    setBits (f.relabel tol itemCount) is = (setBits f is).relabel tol itemCount := by
  induction is generalizing f with
  | nil => rfl
  | cons i is ih => rw [setBits_cons, setBit_relabel, ih, setBits_cons]

theorem addItem_relabel (item : Packet) :
    addItem (f.relabel tol itemCount) item = (addItem f item).relabel tol itemCount :=
  setBits_relabel f tol itemCount (filterIndices f item)

end

/-- A command that needs no filter and is no construction answers the same in every context. -/
theorem exec_ignores_context {i : Instr} (hn : i.needsFilter = false)
    (hc : i.isConstruction = false) (s : State) :
    ∃ r, ∀ c, exec i { s with context := c } = .next (emit r { s with context := c }) := by
  cases i
  case fnv1a item => exact ⟨_, fun _ => rfl⟩
  case murmur3 seed item => exact ⟨_, fun _ => rfl⟩
  case indices hashCount bitCount seed item =>
    simp only [exec, execIndices]
    split_ifs <;> exact ⟨_, fun _ => rfl⟩
  case size n tol =>
    simp only [exec, execSize]
    split_ifs <;> exact ⟨_, fun _ => rfl⟩
  case newsz | newex | load => cases hc
  all_goals cases hn

/-- Settles O56: a command that needs no filter ignores the context, and the others but RDPAR read
and write only what `relabel` leaves alone. -/
theorem reportingRegistersAreInert : Obligations.ReportingRegistersAreInert := by
  intro i s f tol itemCount hpar hc
  cases hn : i.needsFilter with
  | false =>
    obtain ⟨r, h⟩ := exec_ignores_context hn hc s
    exact ⟨r, f, h _, h _⟩
  | true =>
    cases i
    case setbit index =>
      exact ⟨_, setBit f index.toInt, rfl,
        congrArg (fun g => respond [] (hold g s)) (setBit_relabel f tol itemCount index.toInt)⟩
    case add item =>
      exact ⟨_, addItem f item, rfl,
        congrArg (fun g => respond [] (hold g s)) (addItem_relabel f tol itemCount item)⟩
    case getbit | rdbits | contains => exact ⟨_, f, rfl, rfl⟩
    case rdpar => exact absurd rfl hpar
    all_goals cases hn

/-! ### Base64 (R63) -/

theorem sextetValue_sextetChar : ∀ v < 64, sextetValue (sextetChar v) = some v := by decide

theorem sextetValue_base64Pad : sextetValue base64Pad = none := by decide

theorem ofNat_eq_byte {n : Nat} {b : Byte} (h : n % 256 = b.toNat) : BitVec.ofNat 8 n = b :=
  BitVec.eq_of_toNat_eq (by rw [BitVec.toNat_ofNat, h])

/-- Decoding the base64 text of a byte sequence gives the bytes back. -/
theorem base64Decode_base64Encode (p : Packet) : base64Decode (base64Encode p) = some p := by
  induction p using base64Encode.induct with
  | case1 => rfl
  | case2 a =>
    have ha := a.isLt
    rw [base64Encode, base64Decode]
    simp only [sextetValue_base64Pad]
    rw [sextetValue_sextetChar _ (by omega), sextetValue_sextetChar _ (by omega)]
    simp only [and_self, if_true]
    rw [ofNat_eq_byte (b := a) (by omega)]
  | case3 a b =>
    have ha := a.isLt
    have hb := b.isLt
    rw [base64Encode, base64Decode]
    simp only [sextetValue_base64Pad]
    rw [sextetValue_sextetChar _ (by omega), sextetValue_sextetChar _ (by omega),
      sextetValue_sextetChar _ (by omega)]
    simp only [and_self, if_true]
    rw [ofNat_eq_byte (b := a) (by omega), ofNat_eq_byte (b := b) (by omega)]
  | case4 a b c rest ih =>
    have ha := a.isLt
    have hb := b.isLt
    have hc := c.isLt
    rw [base64Encode, base64Decode, ih]
    rw [sextetValue_sextetChar _ (by omega), sextetValue_sextetChar _ (by omega),
      sextetValue_sextetChar _ (by omega), sextetValue_sextetChar _ (by omega)]
    simp only [Option.map_some]
    rw [ofNat_eq_byte (b := a) (by omega), ofNat_eq_byte (b := b) (by omega),
      ofNat_eq_byte (b := c) (by omega)]

/-! ### Saving a filter and loading it (R37, R62) -/

theorem natCount_ofNat {n : Nat} (h : n ≤ maxCount) : natCount (BitVec.ofNat 64 n) = n := by
  rw [natCount, toInt_ofNat_of_le h, Int.toNat_natCast]

theorem countBytes_eq_i64Bytes {n : Nat} (h : n ≤ maxCount) :
    countBytes n = i64Bytes (BitVec.ofNat 64 n) := by
  unfold maxCount at h
  rw [countBytes, i64Bytes, BitVec.toNat_ofNat, Nat.mod_eq_of_lt (by omega)]

/-- Each field of a U32, three I64, an F64 and a U32 in a row is read at its own offset. -/
theorem parameterFields_read (status : U32) (b k n : I64) (t : F64) (seed : U32) (rest : Packet) :
    let p := u32Bytes status ++ (i64Bytes b ++ (i64Bytes k ++ (i64Bytes n ++
      (f64Bytes t ++ (u32Bytes seed ++ rest)))))
    i64At p 4 = b ∧ i64At p 12 = k ∧ i64At p 20 = n ∧ f64At p 28 = t ∧ u32At p 36 = seed := by
  refine ⟨i64At_append (u32Bytes status) _ b, ?_, ?_, ?_, ?_⟩
  · simpa using i64At_append (u32Bytes status ++ i64Bytes b) _ k
  · simpa using i64At_append (u32Bytes status ++ (i64Bytes b ++ i64Bytes k)) _ n
  · simpa using f64At_append (u32Bytes status ++ (i64Bytes b ++ (i64Bytes k ++ i64Bytes n))) _ t
  · simpa using
      u32At_append (u32Bytes status ++ (i64Bytes b ++ (i64Bytes k ++ (i64Bytes n ++ f64Bytes t)))) _
        seed

/-- The LOAD that the container of a filter's two responses asks for. -/
theorem restoreCommand_saveContainer {f : FilterContext} (hb : f.bitCount ≤ maxCount)
    (hk : f.hashCount ≤ maxCount) (hi : f.itemCount ≤ maxCount) :
    restoreCommand (saveContainer (okPacket (parameterBytes f))
        (okPacket (lengthBytes f.nbytes ++ bufferBytes f))) =
      some (.load (BitVec.ofNat 64 f.bitCount) (BitVec.ofNat 64 f.hashCount)
        (BitVec.ofNat 64 f.itemCount) f.tol f.seed (bufferBytes f)) := by
  have hdata : (okPacket (lengthBytes f.nbytes ++ bufferBytes f)).drop 8 = bufferBytes f := by
    rw [okPacket, ← List.append_assoc]
    exact List.drop_left' (by simp [lengthBytes])
  obtain ⟨h4, h12, h20, h28, h36⟩ := parameterFields_read (statusCode .ok)
    (BitVec.ofNat 64 f.bitCount) (BitVec.ofNat 64 f.hashCount) (BitVec.ofNat 64 f.itemCount)
    f.tol f.seed (lengthBytes f.nbytes)
  rw [← countBytes_eq_i64Bytes hb, ← countBytes_eq_i64Bytes hk, ← countBytes_eq_i64Bytes hi,
    ← parameterBytes, ← okPacket] at h4 h12 h20 h28 h36
  simp [saveContainer, restoreCommand, hdata, base64Decode_base64Encode, h4, h12, h20, h28, h36]

/-- LOAD of operands that pass every test holds the filter they describe (R188). -/
theorem execLoad_of_ok {bitCount hashCount itemCount : I64} {tol : F64} {seed : U32}
    {bytes : Packet} {s : State} (hne : bytes.length ≠ 0)
    (hok : explicitCountsOk bitCount hashCount itemCount tol = true)
    (hcap : bytes.length ≤ s.config.maxBytes) :
    ∃ r, execLoad bitCount hashCount itemCount tol seed bytes s = .next (emit r (hold
      { bitCount := natCount bitCount, hashCount := natCount hashCount, seed := seed, tol := tol,
        itemCount := natCount itemCount, nbytes := bytes.length, bits := Memory.ofBytes 0 bytes }
      s)) := by
  unfold execLoad
  rw [if_neg hne, if_neg (by simp [hok]), if_neg (by simpa [exceedsCapacity_iff] using hcap)]
  exact ⟨_, rfl⟩

/-- LOAD of the registers and the bytes of a legal filter holds that filter (R195). -/
theorem execLoad_of_wf {c : Config} {f : FilterContext} {u : State} (hf : f.wf c = true)
    (hcap : f.nbytes ≤ u.config.maxBytes) :
    ∃ r, execLoad (BitVec.ofNat 64 f.bitCount) (BitVec.ofNat 64 f.hashCount)
      (BitVec.ofNat 64 f.itemCount) f.tol f.seed (bufferBytes f) u = .next (emit r (hold f u)) := by
  obtain ⟨⟨hb, hbm⟩, ⟨hk, hkm⟩, him, ht, ⟨hn, -⟩, hm, hbelow⟩ := (f.wf_iff c).1 hf
  have hlen : (bufferBytes f).length = f.nbytes := Memory.toBytes_length _ _
  have hok : explicitCountsOk (BitVec.ofNat 64 f.bitCount) (BitVec.ofNat 64 f.hashCount)
      (BitVec.ofNat 64 f.itemCount) f.tol = true := by
    rw [explicitCountsOk_iff, toInt_ofNat_of_le hbm, toInt_ofNat_of_le hkm, toInt_ofNat_of_le him]
    exact ⟨ht, by omega, by omega, by omega⟩
  obtain ⟨r, h⟩ := execLoad_of_ok (seed := f.seed) (s := u) (by omega) hok (hlen.trans_le hcap)
  refine ⟨r, h.trans ?_⟩
  rw [natCount_ofNat hbm, natCount_ofNat hkm, natCount_ofNat him, hlen, bufferBytes,
    Memory.ofBytes_toBytes hm hbelow]

theorem exec_rdpar {s : State} {f : FilterContext} (hf : s.context = some f) :
    exec .rdpar s = respond (parameterBytes f) s := by
  simp only [exec, execRdpar, hf]

theorem exec_rdbits {s : State} {f : FilterContext} (hf : s.context = some f) :
    exec .rdbits s = respond (lengthBytes f.nbytes ++ bufferBytes f) s := by
  simp only [exec, execRdbits, hf]

/-- Settles O51: the container asks for the LOAD of the filter's own registers and bytes, and that
LOAD holds the filter. -/
theorem containerRestoresTheFilter : Obligations.ContainerRestoresTheFilter := by
  intro s u f hs hf hcap
  have hwf : f.wf s.config = true := (s.wf_iff.1 hs).2.1 f hf
  obtain ⟨⟨-, hb⟩, ⟨-, hk⟩, hi, -⟩ := (f.wf_iff s.config).1 hwf
  obtain ⟨r, hload⟩ := execLoad_of_wf (u := u) hwf hcap
  refine ⟨okPacket (parameterBytes f), okPacket (lengthBytes f.nbytes ++ bufferBytes f), _, _,
    exec_rdpar hf, exec_rdbits hf, restoreCommand_saveContainer hb hk hi, hload, rfl⟩

end Sys2Proof.Machine
end

section
/-! Proofs of the memory statements: queued commands run in order (R58, R262), GETBIT after SETBIT
(R150, R151), base64 (R63), and the bits that ADD leaves alone (R57). -/

namespace Sys2Proof

/-! ### The decoder reads back what the encoder wrote (R83, R85) -/

/-- A field that does not come first is read at the front of what follows the fields before it. -/
theorem u32At_succ (p : Packet) (k : Nat) : u32At p (k + 1) = u32At (p.drop (k + 1)) 0 := rfl

theorem i64At_succ (p : Packet) (k : Nat) : i64At p (k + 1) = i64At (p.drop (k + 1)) 0 := rfl

theorem f64At_succ (p : Packet) (k : Nat) : f64At p (k + 1) = f64At (p.drop (k + 1)) 0 := rfl

@[simp] theorem u32At_u32Bytes (v : U32) (post : Packet) : u32At (u32Bytes v ++ post) 0 = v :=
  u32At_append [] post v

@[simp] theorem i64At_i64Bytes (v : I64) (post : Packet) : i64At (i64Bytes v ++ post) 0 = v :=
  i64At_append [] post v

@[simp] theorem f64At_f64Bytes (v : F64) (post : Packet) : f64At (f64Bytes v ++ post) 0 = v :=
  f64At_append [] post v

@[simp] theorem drop_u32Bytes (v : U32) (post : Packet) (k : Nat) :
    (u32Bytes v ++ post).drop (k + 4) = post.drop k := rfl

@[simp] theorem drop_i64Bytes (v : I64) (post : Packet) (k : Nat) :
    (i64Bytes v ++ post).drop (k + 8) = post.drop k := rfl

@[simp] theorem drop_f64Bytes (v : F64) (post : Packet) (k : Nat) :
    (f64Bytes v ++ post).drop (k + 8) = post.drop k := rfl

@[simp] theorem drop_dataBytes (d : Packet) : (dataBytes d).drop 4 = d := rfl

@[simp] theorem u32At_u32Bytes_self (v : U32) : u32At (u32Bytes v) 0 = v := by
  simpa using u32At_u32Bytes v []

@[simp] theorem i64At_i64Bytes_self (v : I64) : i64At (i64Bytes v) 0 = v := by
  simpa using i64At_i64Bytes v []

@[simp] theorem f64At_f64Bytes_self (v : F64) : f64At (f64Bytes v) 0 = v := by
  simpa using f64At_f64Bytes v []

/-- Decoding the packet of a well-formed command gives the command back: the packet has the length
its format asks for, and each operand is read where the encoder put it. -/
theorem decode_encode {i : Instr} (h : i.wellFormed = true) : decode (encode i) = .ok i := by
  have hlen : (u32At (dataBytes i.payload) 0).toNat = i.payload.length :=
    len_at [] i.payload (of_decide_eq_true h) 0 rfl
  cases i
  case rdbits | rdpar => rfl
  case setbit | getbit | size | newsz | newex =>
    refine (decode_encode_of rfl rfl).trans ?_
    simp [encode, Instr.fields, u32At_succ, i64At_succ, f64At_succ]
  case fnv1a | murmur3 | indices | load | add | contains =>
    rw [Instr.payload] at hlen
    refine (decode_encode_of rfl ?_).trans ?_
    · simp +arith [encode, Instr.fields, packetLength, Format.hasData, Format.fixed, u32At_succ,
        hlen]
    · simp [encode, Instr.fields, u32At_succ, i64At_succ, f64At_succ]

end Sys2Proof

namespace Sys2Proof.Machine

/-! ### Commands queued and commands executed (R58) -/

/-- No command reads or writes the command channel: with every queue it answers the same and leaves
the same context. -/
theorem exec_ignores_commands (i : Instr) (s : State) :
    ∃ r c, ∀ q, exec i { s with commands := q } =
      .next (emit r { s with commands := q, context := c }) := by
  obtain ⟨config, resetIn, commands, responses, context⟩ := s
  cases i
  case fnv1a | murmur3 => exact ⟨_, _, fun _ => rfl⟩
  case setbit | getbit | rdbits | add | contains | rdpar =>
    cases context <;> exact ⟨_, _, fun _ => rfl⟩
  case indices | size | newsz | newex | load =>
    simp only [exec, execIndices, execSize, execNewsz, execNewex, execLoad]
    split_ifs <;> exact ⟨_, _, fun _ => rfl⟩

theorem core_run_succ {s t : State} (h : step s = .next t) (n : Nat) :
    core.run (n + 1) s = core.run n t := by
  have h' : core.step s = .next t := h
  simp only [Host.Core.run, h']

/-- Settles O14, by induction on the commands: a step decodes the front packet to the command it
encodes, and that command does the same whether or not packets wait behind it. -/
theorem queuedCommandsRunInOrder : Obligations.QueuedCommandsRunInOrder := by
  intro s is hreset hempty hwf
  induction is generalizing s with
  | nil =>
    have hs : { s with commands := [] } = s := by rw [← hempty]
    exact ⟨s, congrArg Host.Outcome.next hs, rfl, hempty, rfl⟩
  | cons i is ih =>
    obtain ⟨r, c, hexec⟩ := exec_ignores_commands i s
    have hone : exec i s = .next (emit r { s with context := c }) := by
      simpa only [← hempty] using hexec []
    have hstep : step { s with commands := (i :: is).map encode } =
        .next (emit r { s with commands := is.map encode, context := c }) := by
      rw [← hexec]
      exact stepRunsDecodedCommand { s with commands := (i :: is).map encode } _ _ i hreset rfl
        (decode_encode (hwf i (by simp)))
    obtain ⟨t, hrun, hall, hnil, hlen⟩ :=
      ih (emit r { s with context := c }) hreset hempty (fun j hj => hwf j (by simp [hj]))
    refine ⟨t, (core_run_succ hstep is.length).trans hrun, ?_, hnil, ?_⟩
    · rw [execAll, hone]
      exact hall
    · simp +arith [hlen]

/-! ### GETBIT after SETBIT (R150, R151) -/

theorem exec_getbit {s : State} {f : FilterContext} (hf : s.context = some f) (index : I64) :
    exec (.getbit index) s = .next (emit (okPacket (flagBytes (isBitSet f index.toInt))) s) := by
  simp only [exec, execGetbit, hf, respond]

/-- Settles O28: by `isBitSet_setBit` the bit that is set now reads 1 and every other as before. -/
theorem getbitAfterSetbit : Obligations.GetbitAfterSetbit := by
  intro s f i j hf hm hi0 hi
  have hin : inRange f i.toInt = true := by simp [inRange, hi0, hi]
  refine ⟨_, flagBytes (isBitSet f j.toInt), exec_setbit hf i, exec_getbit hf j, ?_⟩
  have hbit : flagBytes (isBitSet (setBit f i.toInt) j.toInt) =
      if i = j then [1, 0, 0, 0] else flagBytes (isBitSet f j.toInt) := by
    rw [isBitSet_setBit _ _ hm, hin]
    split
    next hij => simp [hij, flagBytes, u32Bytes, leBytes]
    next hij => simp [BitVec.toInt_inj, hij]
  rw [← hbit]
  exact exec_getbit rfl j

/-! ### Base64 (R63) -/

/-- Settles O50, by `base64Decode_base64Encode`; the rule's example is computed. -/
theorem base64RoundTrip : Obligations.Base64RoundTrip :=
  ⟨base64Decode_base64Encode, by decide⟩

/-! ### ADD and the padding (R57, R142) -/

theorem exec_add {s : State} {f : FilterContext} (hf : s.context = some f) (item : Packet) :
    exec (.add item) s = .next (emit (okPacket []) (hold (addItem f item) s)) := by
  simp only [exec, execAdd, hf, respond]

/-- Every index derived for an item is below BITCOUNT (R142). -/
theorem filterIndices_lt {f : FilterContext} (hb : 1 ≤ f.bitCount) {item : Packet} {i : Nat}
    (hi : i ∈ filterIndices f item) : i < f.bitCount := by
  obtain ⟨k, -, rfl⟩ := mem_indices.1 hi
  exact indexAt_lt _ _ hb k

/-- Settles O55: ADD sets derived indices alone, which are below BITCOUNT. -/
theorem addLeavesPaddingAlone : Obligations.AddLeavesPaddingAlone := by
  intro s f item hf hm hb
  refine ⟨_, addItem f item, exec_add hf item, rfl, fun j hj => ?_⟩
  have hnot : j ∉ filterIndices f item := fun hmem => (filterIndices_lt hb hmem).not_ge hj
  rw [addItem, isBitSet_setBits _ _ hm]
  simp [hnot]

end Sys2Proof.Machine
end

section
/-! Proofs of the encoding statements: decoder and encoder are inverse (R83, R85, R89), the decoder
accepts what the tables allow, and the CORE answers the rest IllegalCommand (R85, R90, R236). -/

namespace Sys2Proof

/-! ### Packets the decoder accepts (R85) -/

theorem toNat_u32At (p : Packet) (off : Nat) :
    (u32At p off).toNat = leNat ((p.drop off).take 4) := by
  have hlt := leNat_lt ((p.drop off).take 4)
  have hle : 256 ^ ((p.drop off).take 4).length ≤ 256 ^ 4 :=
    Nat.pow_le_pow_right (by decide) (List.length_take_le _ _)
  rw [u32At, BitVec.toNat_ofNat, Nat.mod_eq_of_lt (by omega)]

theorem toNat_u32At_lt (p : Packet) (off : Nat) : (u32At p off).toNat < 4294967296 :=
  (u32At p off).isLt

theorem fixed_le_packetLength (f : Format) (p : Packet) : f.fixed ≤ packetLength f p := by
  unfold packetLength
  split <;> omega

/-- A header word whose upper 24 bits are zero is its opcode and three zero bytes (R81). -/
theorem header_bytes {p : Packet} (hlen : ¬p.length < 4) (hres : (u32At p 0).extractLsb' 8 24 = 0) :
    ∃ o rest, p = o :: 0 :: 0 :: 0 :: rest := by
  match p, hlen with
  | o :: b :: c :: d :: rest, _ =>
    have hval : (u32At (o :: b :: c :: d :: rest) 0).toNat =
        o.toNat + 256 * (b.toNat + 256 * (c.toNat + 256 * d.toNat)) := by
      rw [toNat_u32At]
      rfl
    have hzero := congrArg BitVec.toNat hres
    rw [BitVec.extractLsb'_toNat, Nat.shiftRight_eq_div_pow, hval] at hzero
    have ho := o.isLt
    have hb := b.isLt
    have hc := c.isLt
    have hd := d.isLt
    have h0 : b.toNat + 256 * (c.toNat + 256 * d.toNat) = 0 := by
      simp only [BitVec.ofNat_eq_ofNat, BitVec.toNat_ofNat] at hzero
      omega
    refine ⟨o, rest, ?_⟩
    rw [BitVec.eq_of_toNat_eq (x := b) (y := 0) (by simp; omega),
      BitVec.eq_of_toNat_eq (x := c) (y := 0) (by simp; omega),
      BitVec.eq_of_toNat_eq (x := d) (y := 0) (by simp; omega)]
  | [], h | [_], h | [_, _], h | [_, _, _], h => exact absurd (by simp) h

/-- R85, said once: what the decoder accepts, and the command it reads. -/
theorem decode_eq_ok_iff {p : Packet} {i : Instr} : decode p = .ok i ↔
    ∃ o rest f rd, p = o :: 0 :: 0 :: 0 :: rest ∧ opcodeRow o.toNat = some (f, rd) ∧
      p.length = packetLength f p ∧ i = rd p := by
  constructor
  · intro h
    unfold decode at h
    split at h
    · cases h
    next hlen =>
    split at h
    · cases h
    next hres =>
    obtain ⟨o, rest, rfl⟩ := header_bytes hlen (not_not.1 hres)
    have hopc : (u32At (o :: 0 :: 0 :: 0 :: rest) 0).extractLsb' 0 8 = o := by
      rw [u32At_header]
      exact BitVec.eq_of_toNat_eq (by simp [Nat.mod_eq_of_lt o.isLt])
    rw [hopc] at h
    split at h
    · cases h
    next f rd hrow =>
    split_ifs at h with _ hpl
    cases h
    exact ⟨o, rest, f, rd, rfl, hrow, not_not.1 hpl, rfl⟩
  · rintro ⟨o, rest, f, rd, rfl, hrow, hpl, rfl⟩
    exact decode_of_header o rest f rd hrow hpl

/-! ### Reading the fields of a packet and writing them again (R82, R83) -/

theorem u32Bytes_append_drop {p : Packet} {off : Nat} (h : off + 4 ≤ p.length) :
    u32Bytes (u32At p off) ++ p.drop (off + 4) = p.drop off := by
  rw [u32Bytes_u32At p off h, ← List.drop_drop, List.take_append_drop]

theorem i64Bytes_append_drop {p : Packet} {off : Nat} (h : off + 8 ≤ p.length) :
    i64Bytes (i64At p off) ++ p.drop (off + 8) = p.drop off := by
  rw [i64Bytes_i64At p off h, ← List.drop_drop, List.take_append_drop]

theorem f64Bytes_append_drop {p : Packet} {off : Nat} (h : off + 8 ≤ p.length) :
    f64Bytes (f64At p off) ++ p.drop (off + 8) = p.drop off := i64Bytes_append_drop h

theorem u32Bytes_last {p : Packet} {off : Nat} (h : p.length = off + 4) :
    u32Bytes (u32At p off) = p.drop off := by
  rw [u32Bytes_u32At p off h.ge, List.take_of_length_le (by simp [h])]

theorem i64Bytes_last {p : Packet} {off : Nat} (h : p.length = off + 8) :
    i64Bytes (i64At p off) = p.drop off := by
  rw [i64Bytes_i64At p off h.ge, List.take_of_length_le (by simp [h])]

theorem f64Bytes_last {p : Packet} {off : Nat} (h : p.length = off + 8) :
    f64Bytes (f64At p off) = p.drop off := i64Bytes_last h

/-- LEN and DATA written again, where LEN says how long DATA is. -/
theorem dataBytes_drop {p : Packet} {off : Nat} (h : p.length = off + 4 + (u32At p off).toNat) :
    dataBytes (p.drop (off + 4)) = p.drop off := by
  have hlen : (p.drop (off + 4)).length = (u32At p off).toNat := by
    rw [List.length_drop]
    omega
  rw [dataBytes, hlen, ← u32Bytes, u32Bytes_append_drop (by omega)]

/-- What a row of the opcode map reads from a packet of the right length has the row's opcode, the
packet's fields and a payload that LEN can count. -/
theorem read_of_opcodeRow {o : Byte} {f : Format} {rd : Packet → Instr} {p : Packet}
    (hrow : opcodeRow o.toNat = some (f, rd)) (hlen : p.length = packetLength f p) :
    (rd p).opcode = o ∧ (rd p).fields = p.drop 4 ∧ (rd p).wellFormed = true := by
  unfold opcodeRow at hrow
  split at hrow
  case h_14 => cases hrow
  all_goals
    next ho =>
    cases hrow
    simp only [packetLength, Format.hasData, Format.fixed, if_true, Bool.false_eq_true,
      if_false] at hlen
    refine ⟨(BitVec.eq_of_toNat_eq ho).symm, ?_, ?_⟩
    · simp (disch := omega) only [Instr.fields, dataBytes_drop, u32Bytes_append_drop,
        i64Bytes_append_drop, f64Bytes_append_drop, u32Bytes_last, i64Bytes_last, f64Bytes_last,
        List.drop_eq_nil_of_le]
    · simp [Instr.wellFormed, Instr.payload, hlen, toNat_u32At_lt]

/-! ### The tables of the rules (R85, R89) -/

/-- The rows of the decoder's opcode map are those of the table of R89. -/
theorem mem_ruleTable_iff {row : Byte × Nat × Bool} : row ∈ ruleTable ↔
    ∃ f rd, opcodeRow row.1.toNat = some (f, rd) ∧ row.2 = (f.fixed, f.hasData) := by
  have hmap : ∀ row ∈ ruleTable,
      (opcodeRow row.1.toNat).map (fun r => (r.1.fixed, r.1.hasData)) = some row.2 := by decide
  have hmem : ∀ o : Byte, ∀ r ∈ opcodeRow o.toNat, (o, r.1.fixed, r.1.hasData) ∈ ruleTable := by
    decide
  constructor
  · intro h
    obtain ⟨⟨f, rd⟩, hrow, heq⟩ := Option.map_eq_some_iff.1 (hmap row h)
    exact ⟨f, rd, hrow, heq.symm⟩
  · rintro ⟨f, rd, hrow, heq⟩
    have h := hmem row.1 (f, rd) hrow
    rwa [← heq] at h

theorem packetLength_eq (f : Format) (p : Packet) : packetLength f p =
    f.fixed + if f.hasData then leNat ((p.drop (f.fixed - 4)).take 4) else 0 := by
  rw [packetLength, toNat_u32At]
  split <;> rfl

/-- The header word of R85 in bytes: a first byte and three zero bytes. -/
theorem header_iff {p : Packet} : (4 ≤ p.length ∧ ∀ a, 1 ≤ a → a ≤ 3 → p.getD a 0 = 0) ↔
    ∃ o rest, p = o :: 0 :: 0 :: 0 :: rest := by
  constructor
  · rintro ⟨hlen, hzero⟩
    match p, hlen with
    | o :: b :: c :: d :: rest, _ =>
      have hb : b = 0 := hzero 1 (by decide) (by decide)
      have hc : c = 0 := hzero 2 (by decide) (by decide)
      have hd : d = 0 := hzero 3 (by decide) (by decide)
      exact ⟨o, rest, by rw [hb, hc, hd]⟩
  · rintro ⟨o, rest, rfl⟩
    refine ⟨by simp, fun a h1 h3 => ?_⟩
    interval_cases a <;> rfl

/-- A packet is legal when it has a header word, a row of the opcode map and that row's length. -/
theorem legalPacket_iff {p : Packet} : LegalPacket p ↔
    ∃ o rest f rd, p = o :: 0 :: 0 :: 0 :: rest ∧ opcodeRow o.toNat = some (f, rd) ∧
      p.length = packetLength f p := by
  constructor
  · rintro ⟨h4, hzero, row, hmem, hopc, -, hlen⟩
    obtain ⟨o, rest, hp⟩ := header_iff.1 ⟨h4, hzero⟩
    obtain ⟨f, rd, hrow, heq⟩ := mem_ruleTable_iff.1 hmem
    have ho : o = row.1 := by
      rw [← hopc, hp]
      rfl
    refine ⟨o, rest, f, rd, hp, ho ▸ hrow, ?_⟩
    rw [hlen, heq, packetLength_eq]
  · rintro ⟨o, rest, f, rd, hp, hrow, hlen⟩
    obtain ⟨h4, hzero⟩ := header_iff.2 ⟨o, rest, hp⟩
    refine ⟨h4, hzero, (o, f.fixed, f.hasData), mem_ruleTable_iff.2 ⟨f, rd, hrow, rfl⟩, ?_,
      hlen ▸ fixed_le_packetLength f p, hlen.trans (packetLength_eq f p)⟩
    rw [hp]
    rfl

/-! ### The statements about packets -/

/-- Settles O1, by `decode_encode`. -/
theorem decodeOfEncode : Obligations.DecodeOfEncode := fun _ h => decode_encode h

/-- Settles O2: the accepted packet is its opcode, three zero bytes and the fields that its row reads. -/
theorem encodeOfDecode : Obligations.EncodeOfDecode := by
  intro p i h
  obtain ⟨o, rest, f, rd, rfl, hrow, hlen, rfl⟩ := decode_eq_ok_iff.1 h
  obtain ⟨hopc, hfields, hwf⟩ := read_of_opcodeRow hrow hlen
  refine ⟨?_, hwf⟩
  rw [encode, hopc, hfields]
  rfl

/-- Settles O3: the decoder and the rules' table ask the same of a packet. -/
theorem legalPacketsAreThoseOfTheTable : Obligations.LegalPacketsAreThoseOfTheTable := by
  intro p
  rw [legalPacket_iff]
  constructor
  · rintro ⟨i, h⟩
    obtain ⟨o, rest, f, rd, hp, hrow, hlen, -⟩ := decode_eq_ok_iff.1 h
    exact ⟨o, rest, f, rd, hp, hrow, hlen⟩
  · rintro ⟨o, rest, f, rd, hp, hrow, hlen⟩
    exact ⟨rd p, decode_eq_ok_iff.2 ⟨o, rest, f, rd, hp, hrow, hlen, rfl⟩⟩

/-- Settles O4: each packet is a literal, so evaluation decides it. -/
theorem specPacketsDecode : Obligations.SpecPacketsDecode := by
  unfold Obligations.SpecPacketsDecode
  decide

end Sys2Proof

namespace Sys2Proof.Machine

/-- Settles O7, by `step_cases`: a packet that is not legal decodes to no command, and the other cases
have reset asserted or no packet. -/
theorem illegalPacketsAnswerIllegalCommand : Obligations.IllegalPacketsAnswerIllegalCommand := by
  intro s p rest hreset hcmd hill
  obtain ⟨hr, -⟩ | ⟨-, hnil, -⟩ | ⟨q, rest', e, -, hq, he, hstep⟩ | ⟨q, rest', i, -, hq, hi, -⟩ :=
    step_cases s
  · simp [hreset] at hr
  · simp [hcmd] at hnil
  · rw [hstep, raise_eq]
    simp only [State.popCommand, hcmd, List.tail_cons]
    rfl
  · cases hcmd.symm.trans hq
    exact absurd ((legalPacketsAreThoseOfTheTable p).1 ⟨i, hi⟩) hill

end Sys2Proof.Machine
end

section
/-! Proof of the statement about text: a printed command assembles back (R92). Each printed operand is
read by its own parser up to the comma or the end that follows it. -/

namespace Sys2Proof.Machine

/-! ### Digits (R92) -/

/-- The text that may follow a printed operand: none, or a comma and what comes after it. -/
def AtComma (rest : List Char) : Prop := rest = [] ∨ ∃ cs, rest = ',' :: cs

@[simp] theorem atComma_nil : AtComma [] := .inl rfl

@[simp] theorem atComma_cons (cs : List Char) : AtComma (',' :: cs) := .inr ⟨cs, rfl⟩

theorem digitValue_hexDigit : ∀ d < 16, digitValue (hexDigit d) = some d := by decide

theorem hexDigit_ne : ∀ d < 16, '-' ≠ hexDigit d ∧ 'x' ≠ hexDigit d := by decide

theorem digits_hexDigit {base d : Nat} (hb : base ≤ 16) (hd : d < base) (cs : List Char)
    (v k : Nat) : digits base (hexDigit d :: cs) v k = digits base cs (base * v + d) (k + 1) := by
  rw [digits, digitValue_hexDigit d (by omega)]
  exact if_pos hd

theorem digits_atComma {rest : List Char} (h : AtComma rest) (base v k : Nat) :
    digits base rest v k = (v, k, rest) := by
  obtain rfl | ⟨cs, rfl⟩ := h <;> rfl

theorem digits_hexDigits (k v : Nat) (cs : List Char) (a n : Nat) :
    digits 16 (hexDigits k v ++ cs) a n = digits 16 cs (16 ^ k * a + v % 16 ^ k) (n + k) := by
  induction k generalizing v cs with
  | zero => simp [hexDigits, Nat.mod_one]
  | succ k ih =>
    rw [hexDigits, List.append_assoc, List.singleton_append, ih,
      digits_hexDigit le_rfl (Nat.mod_lt _ (by decide)), pow_succ', Nat.mod_mul]
    congr 1
    ring

theorem digits_decDigits {fuel v : Nat} (hv : v < 10 ^ (fuel + 1)) (cs : List Char) :
    ∃ n, digits 10 (decDigits (fuel + 1) v ++ cs) 0 0 = digits 10 cs v (n + 1) := by
  induction fuel generalizing v cs with
  | zero =>
    have hv' : v < 10 := by simpa using hv
    refine ⟨0, ?_⟩
    simp [decDigits, hv', Nat.mod_eq_of_lt hv', digits_hexDigit (by decide) hv']
  | succ fuel ih =>
    rw [decDigits, List.append_assoc, List.singleton_append]
    split
    next hlt =>
      refine ⟨0, ?_⟩
      simp [Nat.mod_eq_of_lt hlt, digits_hexDigit (by decide) hlt]
    next =>
      obtain ⟨n, hn⟩ := ih (v := v / 10) (by omega) (hexDigit (v % 10) :: cs)
      refine ⟨n + 1, ?_⟩
      rw [hn, digits_hexDigit (by decide) (Nat.mod_lt _ (by decide)), Nat.div_add_mod]

theorem digits1_eq {base v k : Nat} {cs rest : List Char}
    (h : digits base cs 0 0 = (v, k + 1, rest)) : digits1 base cs = some (v, k + 1, rest) := by
  simp [digits1, h]

/-- Printed hexadecimal digits read back, with their number. -/
theorem digits1_hexDigits {k v : Nat} (hv : v < 16 ^ (k + 1)) {rest : List Char}
    (h : AtComma rest) : digits1 16 (hexDigits (k + 1) v ++ rest) = some (v, k + 1, rest) := by
  refine digits1_eq ?_
  rw [digits_hexDigits, digits_atComma h, Nat.mod_eq_of_lt hv, Nat.mul_zero, Nat.zero_add,
    Nat.zero_add]

/-- Printed decimal digits read back. -/
theorem digits1_decDigits {v : Nat} (hv : v < 10 ^ 20) {rest : List Char} (h : AtComma rest) :
    ∃ n, digits1 10 (decDigits 20 v ++ rest) = some (v, n + 1, rest) := by
  obtain ⟨n, hn⟩ := digits_decDigits hv rest
  exact ⟨n, digits1_eq (hn.trans (digits_atComma h 10 v (n + 1)))⟩

/-- Decimal digits start with a digit and have no `x` after it. -/
theorem decDigits_head (fuel v : Nat) {rest : List Char} (h : rest.head? ≠ some 'x') :
    ∃ d < 16, ∃ cs, decDigits (fuel + 1) v ++ rest = hexDigit d :: cs ∧ cs.head? ≠ some 'x' := by
  have hd : v % 10 < 16 := by omega
  induction fuel generalizing v rest with
  | zero => exact ⟨v % 10, hd, rest, by simp [decDigits], h⟩
  | succ fuel ih =>
    rw [decDigits, List.append_assoc, List.singleton_append]
    split
    · exact ⟨v % 10, hd, rest, rfl, h⟩
    · have hx : 'x' ≠ hexDigit (v % 10) := (hexDigit_ne _ hd).2
      exact ih (v / 10) (by simpa using hx.symm) (by omega)

/-! ### Operands (R92) -/

@[simp] theorem skipBlank_space (cs : List Char) : skipBlank (' ' :: cs) = skipBlank cs := rfl

theorem skipBlank_hexDigit {d : Nat} (hd : d < 16) (cs : List Char) :
    skipBlank (hexDigit d :: cs) = hexDigit d :: cs := by
  have hne : ∀ d < 16, ¬((hexDigit d).toNat = 32 ∨ (hexDigit d).toNat = 9) := by decide
  rw [skipBlank, if_neg (hne d hd)]

/-- A text that starts with a digit and has no `x` after it is no hexadecimal number and not
negative. -/
theorem parseInt_hexDigit {d : Nat} (hd : d < 16) {cs : List Char} (hx : cs.head? ≠ some 'x') :
    parseInt (hexDigit d :: cs) =
      (digits1 10 (hexDigit d :: cs)).map fun r => ((r.1 : Int), r.2.2) := by
  have hhex : dropWord "0x".toList (hexDigit d :: cs) = none := by
    have hcs : dropWord "x".toList cs = none := by
      cases cs with
      | nil => rfl
      | cons c cs => exact if_neg fun h => hx (by rw [← h]; rfl)
    by_cases h0 : '0' = hexDigit d
    · exact (if_pos h0).trans hcs
    · exact if_neg h0
  have hminus : dropWord "-".toList (hexDigit d :: cs) = none :=
    if_neg (hexDigit_ne d hd).1
  simp only [parseInt, skipBlank_hexDigit hd, hhex, hminus]

theorem parseInt_decDigits {v : Nat} (hv : v < 10 ^ 20) {rest : List Char} (h : AtComma rest) :
    parseInt (decDigits 20 v ++ rest) = some ((v : Int), rest) := by
  have hrest : rest.head? ≠ some 'x' := by
    obtain rfl | ⟨cs, rfl⟩ := h
    · exact nofun
    · rw [List.head?_cons]
      decide
  obtain ⟨n, hn⟩ := digits1_decDigits hv h
  obtain ⟨d, hd, cs, hcs, hx⟩ := decDigits_head 19 v hrest
  rw [hcs] at hn ⊢
  rw [parseInt_hexDigit hd hx, hn]
  rfl

theorem parseInt_minus (cs : List Char) : parseInt ('-' :: cs) =
    (digits1 10 cs).map fun r => (-(r.1 : Int), r.2.2) := rfl

theorem parseInt_hex (cs : List Char) : parseInt ("0x".toList ++ cs) =
    (digits1 16 cs).map fun r => ((r.1 : Int), r.2.2) := rfl

@[simp] theorem parseI64_space (cs : List Char) : parseI64 (' ' :: cs) = parseI64 cs := rfl

@[simp] theorem parseU32_space (cs : List Char) : parseU32 (' ' :: cs) = parseU32 cs := rfl

@[simp] theorem parseTol_space (cs : List Char) : parseTol (' ' :: cs) = parseTol cs := rfl

@[simp] theorem parseBytes_space (cs : List Char) : parseBytes (' ' :: cs) = parseBytes cs := rfl

theorem printU32_eq (v : U32) : printU32 v = "0x".toList ++ hexDigits 8 v.toNat := rfl

theorem printTol_eq (t : F64) : printTol t = "f64:0x".toList ++ hexDigits 16 t.toNat := rfl

/-- A printed I64 reads as its value. -/
theorem parseInt_printI64 (v : I64) {rest : List Char} (h : AtComma rest) :
    parseInt (printI64 v ++ rest) = some (v.toInt, rest) := by
  have hlo := BitVec.le_toInt v
  have hhi := BitVec.toInt_lt (x := v)
  unfold printI64
  split
  next hneg =>
    obtain ⟨n, hn⟩ := digits1_decDigits (v := (-v.toInt).toNat) (by omega) h
    rw [List.cons_append, parseInt_minus, hn, Option.map_some, Int.toNat_of_nonneg (by omega),
      neg_neg]
  next hpos =>
    have hval : (v.toNat : Int) = v.toInt := by
      rw [BitVec.toInt_eq_toNat_cond] at hpos ⊢
      split at hpos <;> omega
    rw [parseInt_decDigits (by omega) h, hval]

@[simp] theorem parseI64_printI64 (v : I64) {rest : List Char} (h : AtComma rest) :
    parseI64 (printI64 v ++ rest) = some (v, rest) := by
  have hlo := BitVec.le_toInt v
  have hhi := BitVec.toInt_lt (x := v)
  simp only [parseI64, parseInt_printI64 v h]
  rw [if_pos (by omega), BitVec.ofInt_toInt]

@[simp] theorem parseU32_printU32 (v : U32) {rest : List Char} (h : AtComma rest) :
    parseU32 (printU32 v ++ rest) = some (v, rest) := by
  have hv := v.isLt
  have hint : parseInt (printU32 v ++ rest) = some ((v.toNat : Int), rest) := by
    rw [printU32_eq, List.append_assoc, parseInt_hex, digits1_hexDigits hv h]
    rfl
  simp only [parseU32, hint]
  rw [if_pos (by omega), BitVec.ofInt_natCast, BitVec.ofNat_toNat, BitVec.setWidth_eq]

theorem parseTol_pattern {cs rest : List Char} {v : Nat} (h : digits1 16 cs = some (v, 16, rest)) :
    parseTol ("f64:0x".toList ++ cs) = some (BitVec.ofNat 64 v, rest) := by
  have hdrop : dropWord "f64:0x".toList (skipBlank ("f64:0x".toList ++ cs)) = some cs := rfl
  simp only [parseTol, hdrop, h]

@[simp] theorem parseTol_printTol (t : F64) {rest : List Char} (h : AtComma rest) :
    parseTol (printTol t ++ rest) = some (t, rest) := by
  rw [printTol_eq, List.append_assoc, parseTol_pattern (digits1_hexDigits t.isLt h),
    BitVec.ofNat_toNat, BitVec.setWidth_eq]

theorem parseHex_byte (b : Byte) (cs : List Char) :
    parseHex (hexDigits 2 b.toNat ++ cs) = (parseHex cs).map fun r => (b :: r.1, r.2) := by
  have hq : ∀ d < 16, (hexDigit d).toNat ≠ 34 := by decide
  have hb := b.isLt
  have h1 : b.toNat / 16 % 16 < 16 := by omega
  have h2 : b.toNat % 16 < 16 := by omega
  have hval : BitVec.ofNat 8 (16 * (b.toNat / 16 % 16) + b.toNat % 16) = b :=
    BitVec.eq_of_toNat_eq (by rw [BitVec.toNat_ofNat]; omega)
  have hdigits : hexDigits 2 b.toNat ++ cs =
    hexDigit (b.toNat / 16 % 16) :: hexDigit (b.toNat % 16) :: cs := rfl
  rw [hdigits, parseHex, if_neg (hq _ h1), digitValue_hexDigit _ h1, digitValue_hexDigit _ h2]
  simp only [hval]

theorem parseHex_printed (p : Packet) (rest : List Char) :
    parseHex ((p.flatMap fun b => hexDigits 2 b.toNat) ++ Char.ofNat 34 :: rest) = some (p, rest) := by
  induction p with
  | nil => cases rest <;> rfl
  | cons b p ih =>
    rw [List.flatMap_cons, List.append_assoc, parseHex_byte, ih]
    rfl

@[simp] theorem parseBytes_printBytes (p : Packet) (rest : List Char) :
    parseBytes (printBytes p ++ rest) = some (p, rest) := by
  have hstep (cs : List Char) : parseBytes ('x' :: Char.ofNat 34 :: cs) = parseHex cs := rfl
  rw [printBytes, List.append_assoc]
  exact (hstep _).trans (parseHex_printed p rest)

@[simp] theorem andThen_comma {α : Type} (p : List Char → Option (α × List Char))
    (cs : List Char) : andThen p (',' :: cs) = p cs := rfl

@[simp] theorem parseSeed_comma (cs : List Char) : parseSeed (',' :: cs) = parseU32 cs := rfl

/-! ### Lines (R92) -/

theorem printOperands_one (o : List Char) : printOperands [o] = ' ' :: (o ++ []) := by
  rw [List.append_nil, printOperands]

theorem printOperands_cons (o p : List Char) (os : List (List Char)) :
    printOperands (o :: p :: os) = ' ' :: (o ++ ',' :: printOperands (p :: os)) := by
  rw [printOperands]
  · rfl
  · exact nofun
/-- The word a printed command starts with. -/
def mnemonicOf : Instr → String
  | .fnv1a _ => "FNV1A"
  | .murmur3 _ _ => "MURMUR3"
  | .indices _ _ _ _ => "INDICES"
  | .setbit _ => "SETBIT"
  | .getbit _ => "GETBIT"
  | .rdbits => "RDBITS"
  | .size _ _ => "SIZE"
  | .newsz _ _ _ => "NEWSZ"
  | .newex _ _ _ _ _ => "NEWEX"
  | .load _ _ _ _ _ _ => "LOAD"
  | .add _ => "ADD"
  | .contains _ => "CONTAINS"
  | .rdpar => "RDPAR"

/-- The text of a printed command's operands. -/
def operandsOf : Instr → List Char
  | .fnv1a item => printOperands [printBytes item]
  | .murmur3 seed item => printOperands [printU32 seed, printBytes item]
  | .indices hashCount bitCount seed item =>
      printOperands [printI64 hashCount, printI64 bitCount, printU32 seed, printBytes item]
  | .setbit index => printOperands [printI64 index]
  | .getbit index => printOperands [printI64 index]
  | .rdbits => []
  | .size n tol => printOperands [printI64 n, printTol tol]
  | .newsz n tol seed => printOperands [printI64 n, printTol tol, printU32 seed]
  | .newex bitCount hashCount itemCount tol seed =>
      printOperands [printI64 bitCount, printI64 hashCount, printI64 itemCount, printTol tol,
        printU32 seed]
  | .load bitCount hashCount itemCount tol seed bytes =>
      printOperands [printI64 bitCount, printI64 hashCount, printI64 itemCount, printTol tol,
        printU32 seed, printBytes bytes]
  | .add item => printOperands [printBytes item]
  | .contains item => printOperands [printBytes item]
  | .rdpar => []


theorem printLine_eq (i : Instr) : printLine i = (mnemonicOf i).toList ++ operandsOf i := by
  cases i <;> rfl

theorem operandsOf_start (i : Instr) : operandsOf i = [] ∨ ∃ cs, operandsOf i = ' ' :: cs := by
  cases i
  case rdbits | rdpar => exact .inl rfl
  all_goals exact .inr ⟨_, rfl⟩

/-- Every operand reads as its value, in the order of the fields. -/
theorem parseOperands_operandsOf (i : Instr) :
    parseOperands (mnemonicOf i).toList (operandsOf i) = some ([i], []) := by
  cases i
  case rdbits | rdpar => rfl
  all_goals
    simp [mnemonicOf, operandsOf, parseOperands, printOperands_one, printOperands_cons,
      -List.append_nil]

/-- The characters of a mnemonic: capitals and digits. -/
abbrev IsMnemonicChar (c : Char) : Prop :=
  (65 ≤ c.toNat ∧ c.toNat ≤ 90) ∨ (48 ≤ c.toNat ∧ c.toNat ≤ 57)

theorem mnemonicOf_chars (i : Instr) :
    (mnemonicOf i).toList ≠ [] ∧ ∀ c ∈ (mnemonicOf i).toList, IsMnemonicChar c := by
  cases i <;> simp [mnemonicOf, IsMnemonicChar]

theorem takeMnemonic_append {name operands : List Char} (hname : ∀ c ∈ name, IsMnemonicChar c)
    (hops : operands = [] ∨ ∃ cs, operands = ' ' :: cs) :
    takeMnemonic (name ++ operands) = (name, operands) := by
  induction name with
  | nil => obtain rfl | ⟨cs, rfl⟩ := hops <;> rfl
  | cons c name ih =>
    have hc : IsMnemonicChar c := hname c (by simp)
    rw [List.cons_append, takeMnemonic, if_pos hc, ih fun d hd => hname d (by simp [hd])]

/-- A line that starts with its mnemonic is what the operands after it say. -/
theorem assembleLine_append {name operands : List Char} {is : List Instr} (hne : name ≠ [])
    (hname : ∀ c ∈ name, IsMnemonicChar c)
    (hops : operands = [] ∨ ∃ cs, operands = ' ' :: cs)
    (h : parseOperands name operands = some (is, [])) :
    assembleLine (name ++ operands) = some is := by
  have htake := takeMnemonic_append hname hops
  obtain ⟨c, name, rfl⟩ := List.exists_cons_of_ne_nil hne
  have hc : IsMnemonicChar c := hname c (by simp)
  have hskip : skipBlank (c :: name ++ operands) = c :: name ++ operands :=
    if_neg (by omega)
  have hstart : atEnd (c :: name ++ operands) = false := by
    rw [atEnd, hskip]
    exact decide_eq_false (by omega)
  simp only [assembleLine, hstart, hskip, htake, h]
  rfl

/-- Settles O5: the line is a mnemonic and its operands, and each reads back. -/
theorem printedCommandsAssembleBack : Obligations.PrintedCommandsAssembleBack := by
  intro i
  obtain ⟨hne, hchars⟩ := mnemonicOf_chars i
  rw [printLine_eq]
  exact assembleLine_append hne hchars (operandsOf_start i) (parseOperands_operandsOf i)

end Sys2Proof.Machine
end

section
/-! Proof of the statement about BUILD: its NEWSZ holds an empty filter or fails, and its ADDs set the
bits of the items (R93, R193, R263). -/

namespace Sys2Proof.Machine

/-! ### What NEWSZ answers (R186) -/

/-- The empty filter that NEWSZ holds for a number of items. -/
def sizedFilter (c : Config) (n : Nat) (tol : F64) (seed : U32) : FilterContext where
  bitCount := sizeBits c n tol
  hashCount := sizeHashes c (sizeBits c n tol) n
  seed := seed
  tol := tol
  itemCount := n
  nbytes := bufferLength (sizeBits c n tol)
  bits := []

section
variable {n : I64} {tol : F64} {s : State}

theorem exec_newsz_invalid (h : toleranceOk tol = false ∨ n.toInt ≤ 0) (seed : U32) :
    exec (.newsz n tol seed) s = raise .invalidParameter s := by
  simp only [exec, execNewsz]
  split
  · rfl
  next htol => exact if_pos (h.resolve_left htol)

theorem exec_newsz_unrepresentable (htol : toleranceOk tol = true) (hn : 0 < n.toInt)
    (hm : maxCount < sizeBits s.config (natCount n) tol) (seed : U32) :
    exec (.newsz n tol seed) s = raise .unrepresentable s := by
  have hrep : representable (sizeBits s.config (natCount n) tol) = false :=
    decide_eq_false hm.not_ge
  simp [exec, execNewsz, htol, hn.not_ge, hrep]

theorem exec_newsz_capacityExceeded (htol : toleranceOk tol = true) (hn : 0 < n.toInt)
    (hm : sizeBits s.config (natCount n) tol ≤ maxCount)
    (hcap : s.config.maxBytes < bufferLength (sizeBits s.config (natCount n) tol)) (seed : U32) :
    exec (.newsz n tol seed) s = raise .capacityExceeded s := by
  have hrep := (representable_iff _).2 hm
  have hexc := (exceedsCapacity_iff _ _).2 hcap
  simp [exec, execNewsz, htol, hn.not_ge, hrep, hexc]

theorem exec_newsz_ok (htol : toleranceOk tol = true) (hn : 0 < n.toInt)
    (hm : sizeBits s.config (natCount n) tol ≤ maxCount)
    (hcap : bufferLength (sizeBits s.config (natCount n) tol) ≤ s.config.maxBytes) (seed : U32) :
    ∃ results, exec (.newsz n tol seed) s =
      respond results (hold (sizedFilter s.config (natCount n) tol seed) s) := by
  have hrep := (representable_iff _).2 hm
  have hexc : exceedsCapacity s.config (bufferLength (sizeBits s.config (natCount n) tol)) = false :=
    decide_eq_false hcap.not_gt
  exact ⟨_, by simp [exec, execNewsz, htol, hn.not_ge, hrep, hexc]; rfl⟩

end

/-! ### Expansions (R93, R263) -/

theorem lastOk_emit (r : Packet) (s : State) :
    lastOk (emit r s) = decide (statusWord r = statusCode .ok) := by
  simp [lastOk]

/-- An expansion whose first command fails ends there. -/
theorem runExpansion_of_raise {i : Instr} {s : State} {st : Status} (hst : st ≠ .ok)
    (h : exec i s = raise st s) (rest : List Instr) : runExpansion (i :: rest) s = raise st s := by
  have hlast : lastOk (emit (failurePacket st) s) = false := by
    rw [lastOk_emit, statusWord_failurePacket]
    cases st
    case ok => exact absurd rfl hst
    all_goals decide
  simp only [runExpansion, h, raise, hlast]
  rfl

/-- An expansion whose first command succeeds goes on with the others. -/
theorem runExpansion_of_respond {i : Instr} {s t : State} {results : Packet}
    (h : exec i s = respond results t) (rest : List Instr) :
    runExpansion (i :: rest) s = execAll rest (emit (okPacket results) t) := by
  have hlast : lastOk (emit (okPacket results) t) = true := by
    rw [lastOk_emit, statusWord_okPacket]
    exact decide_eq_true rfl
  simp only [runExpansion, h, respond, hlast, if_true]

/-! ### Adding items one after another (R189) -/

theorem setBits_append (f : FilterContext) (is js : List Nat) :
    setBits f (is ++ js) = setBits (setBits f is) js := by
  simp [setBits, List.foldl_append]

/-- The indices of items, item after item. -/
def itemIndices (f : FilterContext) (items : List Packet) : List Nat :=
  items.flatMap (filterIndices f)

theorem mem_itemIndices {f : FilterContext} {items : List Packet} {j : Nat} :
    j ∈ itemIndices f items ↔ ∃ x ∈ items, j ∈ filterIndices f x := List.mem_flatMap

theorem filterIndices_setBits (f : FilterContext) (is : List Nat) :
    filterIndices (setBits f is) = filterIndices f := by
  funext item
  exact filterIndices_congr (by simp) (by simp) (by simp) item

/-- ADDs one after another set the bits of all their items. -/
theorem execAll_adds (items : List Packet) {s : State} {f : FilterContext}
    (hf : s.context = some f) :
    ∃ t, execAll (items.map .add) s = .next t ∧
      t.context = some (setBits f (itemIndices f items)) := by
  induction items generalizing s f with
  | nil => exact ⟨s, rfl, hf⟩
  | cons x items ih =>
    obtain ⟨t, ht, hctx⟩ := ih (s := emit (okPacket []) (hold (addItem f x) s))
      (f := addItem f x) rfl
    refine ⟨t, ?_, ?_⟩
    · simp only [List.map_cons, execAll, exec_add hf x, ht]
    · rw [hctx, itemIndices, itemIndices, List.flatMap_cons, setBits_append, addItem,
        filterIndices_setBits]

section
variable {f : FilterContext} (hb : 1 ≤ f.bitCount) (hn : f.nbytes = bufferLength f.bitCount)
  (hbits : f.bits = [])
include hb hn hbits

/-- Items added to an empty filter whose buffer covers its indices leave the bits of their indices. -/
theorem isBitSet_adds (items : List Packet) (j : Nat) :
    isBitSet (setBits f (itemIndices f items)) (j : Int) = true ↔
      ∃ x ∈ items, j ∈ filterIndices f x := by
  have hwf : Memory.wf f.bits = true := by rw [hbits]; rfl
  have hempty : isBitSet f (j : Int) = false := by
    simp [isBitSet_natCast, memRead, hbits, Memory.read]
  have hrange : j ∈ itemIndices f items → inRange f (j : Int) = true := by
    intro hj
    obtain ⟨x, -, hx⟩ := mem_itemIndices.1 hj
    have hlt := filterIndices_lt hb hx
    rw [inRange_natCast, hn, bufferLength]
    exact decide_eq_true (by omega)
  rw [isBitSet_setBits _ _ hwf, hempty, ← mem_itemIndices]
  simpa using hrange

/-- An item that was added to such a filter is found. -/
theorem containsItem_adds {items : List Packet} {x : Packet} (hx : x ∈ items) :
    containsItem (setBits f (itemIndices f items)) x = true := by
  rw [containsItem, filterIndices_setBits, List.all_eq_true]
  exact fun j hj => (isBitSet_adds hb hn hbits items j).2 ⟨x, hx, hj⟩

end

theorem exec_contains {s : State} {f : FilterContext} (hf : s.context = some f) (item : Packet) :
    exec (.contains item) s = .next (emit (okPacket (flagBytes (containsItem f item))) s) := by
  simp only [exec, execContains, hf, respond]

/-! ### BUILD (R93, R193) -/

theorem toInt_length_pos {items : List Packet} (hne : items ≠ []) (hlen : items.length ≤ maxCount) :
    0 < (BitVec.ofNat 64 items.length).toInt := by
  rw [toInt_ofNat_of_le hlen]
  exact_mod_cast List.length_pos_of_ne_nil hne

/-- BUILD whose NEWSZ succeeds holds the empty filter of its sizes with the items' bits set. -/
theorem runExpansion_build {s : State} {tol : F64} {items : List Packet}
    (htol : toleranceOk tol = true) (hne : items ≠ []) (hlen : items.length ≤ maxCount)
    (hm : sizeBits s.config items.length tol ≤ maxCount)
    (hcap : bufferLength (sizeBits s.config items.length tol) ≤ s.config.maxBytes) (seed : U32) :
    let f := sizedFilter s.config items.length tol seed
    ∃ t, runExpansion (build tol seed items) s = .next t ∧
      t.context = some (setBits f (itemIndices f items)) := by
  intro f
  have hn := natCount_ofNat hlen
  obtain ⟨results, hnew⟩ := exec_newsz_ok htol (toInt_length_pos hne hlen) (by rwa [hn])
    (by rwa [hn]) seed
  rw [hn] at hnew
  obtain ⟨t, hadds, hctx⟩ := execAll_adds items (s := emit (okPacket results) (hold f s)) rfl
  exact ⟨t, (runExpansion_of_respond hnew _).trans hadds, hctx⟩

/-- Settles O52: NEWSZ holds an empty filter in which the ADDs set the bits of the items, or it fails and
the expansion ends. -/
theorem buildHoldsItsItems : Obligations.BuildHoldsItsItems := by
  refine ⟨?holds, ?invalid, ?tooLarge⟩
  case holds =>
    intro s tol seed items htol hne hlen hm hcap
    obtain ⟨t, hrun, hctx⟩ := runExpansion_build htol hne hlen hm hcap seed
    have hb := sizeBits_pos s.config items.length tol
    refine ⟨t, _, hrun, hctx, ?_⟩
    simp only [setBits_itemCount, setBits_bitCount, setBits_hashCount, setBits_seed, setBits_tol,
      setBits_nbytes]
    refine ⟨rfl, rfl, rfl, rfl, rfl, rfl, isBitSet_adds hb rfl rfl items, fun x hx => ?_⟩
    rw [exec_contains hctx x, containsItem_adds hb rfl rfl hx]
    rfl
  case invalid =>
    intro s tol seed items h
    have hcount : items = [] → (BitVec.ofNat 64 items.length).toInt ≤ 0 := by
      rintro rfl
      decide
    exact runExpansion_of_raise (by decide) (exec_newsz_invalid (h.imp_right hcount) seed) _
  case tooLarge =>
    intro s tol seed items htol hne hlen
    have hpos := toInt_length_pos hne hlen
    have hn := natCount_ofNat hlen
    refine ⟨fun hm => ?_, fun hm hcap => ?_⟩
    · rw [← hn] at hm
      exact runExpansion_of_raise (by decide) (exec_newsz_unrepresentable htol hpos hm seed) _
    · rw [← hn] at hm hcap
      exact runExpansion_of_raise (by decide) (exec_newsz_capacityExceeded htol hpos hm hcap seed) _

end Sys2Proof.Machine
end

section
/-! Proofs of the HashEngine's statements: each step of the two hashes is injective in the hash (R120,
R122), Murmur's recursion over the chunks is R122's indexed loops, and what FNV1A and MURMUR3 answer
(R121, R123). -/

namespace Sys2Proof.Machine

/-! ### Injective steps of a hash (R6) -/

theorem xor_injective (k : U32) : Function.Injective fun h : U32 => h ^^^ k :=
  fun _ _ => (BitVec.xor_left_inj k).1

/-- A factor with an inverse modulo 2^32 can be divided out. -/
theorem mul_injective_of_inverse {c d : U32} (h : c * d = 1#32) :
    Function.Injective fun x : U32 => x * c :=
  (IsUnit.of_mul_eq_one d h).mul_left_injective

/-- Rotating moves bit `i` to bit `i + r` modulo 32: below 32 the left shift carries it there, from 32 on
the right shift. -/
theorem getLsbD_rotl32 (a : U32) {r i : Nat} (hr : r < 32) (hi : i < 32) :
    (rotl32 a r).getLsbD ((i + r) % 32) = a.getLsbD i := by
  unfold rotl32
  obtain h | h := lt_or_ge (i + r) 32
  · rw [Nat.mod_eq_of_lt h]
    grind
  · have hwrap : (i + r) % 32 = i + r - 32 := by omega
    grind

theorem rotl32_injective {r : Nat} (hr : r < 32) : Function.Injective (rotl32 · r) := by
  intro a b hab
  refine BitVec.eq_of_getLsbD_eq fun i hi => ?_
  rw [← getLsbD_rotl32 a hr hi, ← getLsbD_rotl32 b hr hi]
  exact congrArg (BitVec.getLsbD · _) hab

theorem eq_zero_of_ushiftRight_eq {x : U32} {r : Nat} (hr : 0 < r) (h : x >>> r = x) : x = 0#32 := by
  refine BitVec.eq_of_toNat_eq ?_
  have hdiv := congrArg BitVec.toNat h
  rw [BitVec.toNat_ushiftRight, Nat.shiftRight_eq_div_pow] at hdiv
  by_contra hne
  exact (Nat.div_lt_self (Nat.pos_of_ne_zero hne) (Nat.one_lt_two_pow hr.ne')).ne hdiv

/-- Two words that a shift and exclusive or make equal differ by a word that is its own right shift. -/
theorem xorShift_injective {r : Nat} (hr : 0 < r) :
    Function.Injective fun h : U32 => h ^^^ (h >>> r) := by
  intro g h hgh
  dsimp only at hgh
  refine BitVec.xor_eq_zero_iff.1 (eq_zero_of_ushiftRight_eq hr ?_)
  rw [BitVec.ushiftRight_xor_distrib, ← BitVec.xor_eq_zero_iff]
  calc g >>> r ^^^ h >>> r ^^^ (g ^^^ h) = (g ^^^ g >>> r) ^^^ (h ^^^ h >>> r) := by ac_rfl
    _ = 0#32 := BitVec.xor_eq_zero_iff.2 hgh

/-! ### The FNV hash (R120) -/

theorem fnv_append (a c : Packet) : fnv (a ++ c) = c.foldl fnvStep (fnv a) :=
  List.foldl_append

theorem fnvStep_injective (b : Byte) : Function.Injective (fnvStep · b) :=
  (xor_injective (b.setWidth 32)).comp
    (mul_injective_of_inverse (c := 0x01000193#32) (d := 0x359c449b#32) (by decide))

theorem foldl_fnvStep_injective (c : Packet) : Function.Injective (c.foldl fnvStep ·) := by
  induction c with
  | nil => exact Function.injective_id
  | cons b c ih => exact ih.comp (fnvStep_injective b)

/-- Two last bytes meet the same product, which cancels. -/
theorem fnvStep_xor_fnvStep (h : U32) (x y : Byte) :
    fnvStep h x ^^^ fnvStep h y = (x ^^^ y).setWidth 32 := by
  unfold fnvStep
  generalize h * 0x01000193#32 = p
  calc p ^^^ x.setWidth 32 ^^^ (p ^^^ y.setWidth 32)
      = p ^^^ p ^^^ (x.setWidth 32 ^^^ y.setWidth 32) := by ac_rfl
    _ = (x ^^^ y).setWidth 32 := by rw [BitVec.xor_self, BitVec.zero_xor, BitVec.setWidth_xor]

/-- Settles O15: the last byte's step is the last one of the fold. -/
theorem fnvMultipliesThenXors : Obligations.FnvMultipliesThenXors :=
  ⟨rfl, fun b x => fnv_append b [x]⟩

/-- Settles O16: last bytes meet the same product, and the steps over a suffix are injective in the
hash. -/
theorem fnvKeepsDifferences : Obligations.FnvKeepsDifferences := by
  refine ⟨fun b x y => ?_, fun a b c => ?_⟩
  · rw [fnv_append, fnv_append]
    exact fnvStep_xor_fnvStep (fnv b) x y
  · rw [fnv_append, fnv_append]
    exact (foldl_fnvStep_injective c).eq_iff

/-! ### Murmur chunk by chunk (R122) -/

/-- A packet is a tail of at most three bytes, or a whole chunk in front of a packet. -/
theorem chunkInduction {P : Packet → Prop} (tail : ∀ t, t.length < 4 → P t)
    (chunk : ∀ b0 b1 b2 b3 rest, P rest → P (b0 :: b1 :: b2 :: b3 :: rest)) : ∀ b, P b
  | [] => tail _ (by simp)
  | [_] => tail _ (by simp)
  | [_, _] => tail _ (by simp)
  | [_, _, _] => tail _ (by simp)
  | b0 :: b1 :: b2 :: b3 :: rest => chunk b0 b1 b2 b3 rest (chunkInduction tail chunk rest)

/-- The recursion's own equation. The definition is unfolded by hand, since the unifier would compare the
two hashes first and recurse too deep on them. -/
theorem murmurBody_chunk (h : U32) (b0 b1 b2 b3 : Byte) (rest : Packet) :
    murmurBody h (b0 :: b1 :: b2 :: b3 :: rest) =
      murmurBody (murmurMixH h (murmurWord [b0, b1, b2, b3])) rest := by
  delta murmurBody
  rfl

theorem murmurBody_tail (h : U32) {t : Packet} (ht : t.length < 4) :
    murmurBody h t = murmurTail h t := by
  match t with
  | [] | [_] | [_, _] | [_, _, _] => rfl
  | _ :: _ :: _ :: _ :: _ => simp at ht; omega

theorem murmurMixH_injective (k : U32) : Function.Injective (murmurMixH · k) :=
  (add_left_injective 0xe6546b64#32).comp <|
    (mul_injective_of_inverse (c := 5#32) (d := 0xcccccccd#32) (by decide)).comp <|
      (rotl32_injective (r := 13) (by decide)).comp (xor_injective (murmurMixK k))

theorem murmurTail_injective (t : Packet) : Function.Injective (murmurTail · t) := by
  unfold murmurTail
  split
  · exact Function.injective_id
  · exact xor_injective (murmurMixK (murmurWord t))

theorem murmurBody_injective (b : Packet) : Function.Injective (murmurBody · b) := by
  induction b using chunkInduction with
  | tail t ht => simpa only [murmurBody_tail _ ht] using murmurTail_injective t
  | chunk b0 b1 b2 b3 rest ih => exact ih.comp (murmurMixH_injective (murmurWord [b0, b1, b2, b3]))

theorem murmurFinal_injective : Function.Injective murmurFinal :=
  (xorShift_injective (r := 16) (by decide)).comp <|
    (mul_injective_of_inverse (c := 0xc2b2ae35#32) (d := 0x7ed1b41d#32) (by decide)).comp <|
      (xorShift_injective (r := 13) (by decide)).comp <|
        (mul_injective_of_inverse (c := 0x85ebca6b#32) (d := 0xa5cb9243#32) (by decide)).comp
          (xorShift_injective (r := 16) (by decide))

/-- Settles O19: the steps from the seed to the result are injective in the hash. -/
theorem murmurSeparatesSeeds : Obligations.MurmurSeparatesSeeds :=
  fun b _ _ h => murmurBody_injective b (xor_injective _ (murmurFinal_injective h))

/-! ### Murmur as indexed loops (R122) -/

/-- The byte at an index, as R122's loops read it. -/
def loopByte (b : Packet) (j : Nat) : U32 := (b.getD j 0).setWidth 32

/-- The word of chunk `j`. -/
def loopChunk (b : Packet) (j : Nat) : U32 :=
  loopByte b (4 * j) ||| loopByte b (4 * j + 1) <<< 8 ||| loopByte b (4 * j + 2) <<< 16 |||
    loopByte b (4 * j + 3) <<< 24

/-- The word of the tail, the bytes after the last whole chunk. -/
def loopTailWord (b : Packet) : U32 :=
  (List.range (b.length % 4)).foldl
    (fun k q => k ||| loopByte b (4 * (b.length / 4) + q) <<< (8 * q)) 0#32

/-- The loop over the chunks. -/
def loopChunks (h : U32) (b : Packet) : U32 :=
  (List.range (b.length / 4)).foldl (fun h j => murmurMixH h (loopChunk b j)) h

/-- The loop over the chunks, then the tail. -/
def loopBody (h : U32) (b : Packet) : U32 :=
  if 0 < b.length % 4 then loopChunks h b ^^^ murmurMixK (loopTailWord b) else loopChunks h b

theorem ruleMurmur_eq (b : Packet) (seed : U32) :
    ruleMurmur b seed = murmurFinal (loopBody seed b ^^^ BitVec.ofNat 32 (b.length % 2 ^ 32)) := rfl

@[simp] theorem murmurWord_nil : murmurWord [] = 0#32 := rfl

@[simp] theorem murmurWord_cons (x : Byte) (p : Packet) :
    murmurWord (x :: p) = x.setWidth 32 ||| murmurWord p <<< 8 := by
  have hdisj : x.setWidth 32 &&& murmurWord p <<< 8 = 0#32 := by
    ext i
    grind
  rw [← BitVec.add_eq_or_of_and_eq_zero _ _ hdisj]
  apply BitVec.eq_of_toNat_eq
  simp [murmurWord, leNat, Nat.shiftLeft_eq, Nat.mul_comm]

theorem loopByte_cons_zero (x : Byte) (p : Packet) : loopByte (x :: p) 0 = x.setWidth 32 := rfl

theorem loopByte_cons_succ (x : Byte) (p : Packet) (q : Nat) :
    loopByte (x :: p) (q + 1) = loopByte p q := rfl

/-- R122's loop over the bytes of a tail ors their word in, here from a bit offset on. -/
theorem foldl_loopByte (p : Packet) (k : U32) (o : Nat) :
    (List.range p.length).foldl (fun k q => k ||| loopByte p q <<< (o + 8 * q)) k =
      k ||| murmurWord p <<< o := by
  induction p generalizing k o with
  | nil => simp
  | cons x p ih =>
    have hshift (q : Nat) : o + 8 * (q + 1) = 8 + o + 8 * q := by omega
    rw [List.length_cons, List.range_succ_eq_map, List.foldl_cons, List.foldl_map]
    simp only [Nat.succ_eq_add_one, loopByte_cons_succ, hshift]
    rw [ih, loopByte_cons_zero, BitVec.or_assoc, murmurWord_cons, BitVec.shiftLeft_or_distrib,
      ← BitVec.shiftLeft_add]
    rfl

theorem loopChunk_zero (b0 b1 b2 b3 : Byte) (rest : Packet) :
    loopChunk (b0 :: b1 :: b2 :: b3 :: rest) 0 = murmurWord [b0, b1, b2, b3] := by
  simp [loopChunk, loopByte, BitVec.shiftLeft_or_distrib, ← BitVec.shiftLeft_add, BitVec.or_assoc]

theorem loopBody_tail (h : U32) {t : Packet} (ht : t.length < 4) :
    loopBody h t = murmurTail h t := by
  have hdiv : t.length / 4 = 0 := Nat.div_eq_of_lt ht
  have hmod : t.length % 4 = t.length := Nat.mod_eq_of_lt ht
  have hword : loopTailWord t = murmurWord t := by
    simpa [loopTailWord, hdiv, hmod] using foldl_loopByte t 0#32 0
  simp [loopBody, loopChunks, hdiv, hmod, hword, murmurTail, List.length_pos_iff]

section
variable (b0 b1 b2 b3 : Byte) (rest : Packet)

theorem length_chunk_div : (b0 :: b1 :: b2 :: b3 :: rest).length / 4 = rest.length / 4 + 1 :=
  Nat.add_div_right rest.length (Nat.zero_lt_succ 3)

theorem length_chunk_mod : (b0 :: b1 :: b2 :: b3 :: rest).length % 4 = rest.length % 4 :=
  Nat.add_mod_right rest.length 4

theorem loopChunks_chunk (h : U32) : loopChunks h (b0 :: b1 :: b2 :: b3 :: rest) =
    loopChunks (murmurMixH h (murmurWord [b0, b1, b2, b3])) rest := by
  rw [loopChunks, length_chunk_div, List.range_succ_eq_map, List.foldl_cons, List.foldl_map,
    loopChunk_zero]
  rfl

theorem loopTailWord_chunk :
    loopTailWord (b0 :: b1 :: b2 :: b3 :: rest) = loopTailWord rest := by
  have hindex (q : Nat) : 4 * (rest.length / 4 + 1) + q = 4 * (rest.length / 4) + q + 4 := by omega
  simp only [loopTailWord, length_chunk_div, length_chunk_mod, hindex, loopByte_cons_succ]

theorem loopBody_chunk (h : U32) : loopBody h (b0 :: b1 :: b2 :: b3 :: rest) =
    loopBody (murmurMixH h (murmurWord [b0, b1, b2, b3])) rest := by
  rw [loopBody, length_chunk_mod, loopTailWord_chunk, loopChunks_chunk, loopBody]

end

theorem murmurBody_eq_loopBody (h : U32) (b : Packet) : murmurBody h b = loopBody h b := by
  induction b using chunkInduction generalizing h with
  | tail t ht => rw [murmurBody_tail h ht, loopBody_tail h ht]
  | chunk b0 b1 b2 b3 rest ih => rw [murmurBody_chunk, loopBody_chunk, ih]

/-- Settles O18, by `murmurBody_eq_loopBody`; what surrounds the loops is the same in both. -/
theorem murmurFollowsTheLoops : Obligations.MurmurFollowsTheLoops := by
  intro b seed
  have hlen : BitVec.ofNat 32 (b.length % 2 ^ 32) = BitVec.ofNat 32 b.length := by
    simp [← BitVec.toNat_inj]
  rw [ruleMurmur_eq, ← murmurBody_eq_loopBody, hlen, murmur]

/-! ### The commands (R121, R123, R141, R173) -/

/-- Settles O17: FNV1A is one `respond`, whose status word OK is four zero bytes. -/
theorem fnv1aAnswers : Obligations.Fnv1aAnswers :=
  ⟨fun _ => rfl, fun s item => respond_eq (u32Bytes (fnv item)) s⟩

/-- Settles O20: MURMUR3 is one `respond`, whose hash takes its seed from the operand. -/
theorem murmur3Answers : Obligations.Murmur3Answers :=
  ⟨fun _ _ => rfl, fun s seed item => respond_eq (u32Bytes (murmur item seed)) s⟩

/-- Settles O32: `exec_ignores_context` at the context that is held and at the other one. -/
theorem unitCommandsIgnoreTheContext : Obligations.UnitCommandsIgnoreTheContext := by
  intro i s c hn hc
  obtain ⟨r, h⟩ := exec_ignores_context hn hc s
  exact ⟨r, h s.context, h c⟩

end Sys2Proof.Machine
end

section
/-! Proofs of the IndexDeriver's statements: an index as natural-number arithmetic (R140), its bounds
(R142), the first index and a second hash of 0 (R140, R143), and what INDICES answers (R141). -/

namespace Sys2Proof.Machine

/-! ### The members of the derived indices (R140, R143) -/

theorem indices_getD (item : Packet) {hashCount i : Nat} (hi : i < hashCount) (bitCount : Nat)
    (seed : U32) : (indices item hashCount bitCount seed).getD i 0 =
      indexAt (fnv item) (murmur item seed) bitCount i := by
  rw [indices, List.getD_eq_getElem?_getD, List.getElem?_map, List.getElem?_range hi,
    Option.map_some, Option.getD_some]

/-- Reducing the sum modulo 2^32 absorbs the product's own reduction. -/
theorem indexAt_eq (h1 h2 : U32) (bitCount i : Nat) : indexAt h1 h2 bitCount i =
    (h1.toNat + (i % 2 ^ 32) * h2.toNat) % 2 ^ 32 % bitCount := by
  rw [indexAt, BitVec.toNat_add, BitVec.toNat_mul, BitVec.toNat_ofNat, Nat.add_mod_mod]

@[simp] theorem indexAt_zero (h1 h2 : U32) (bitCount : Nat) :
    indexAt h1 h2 bitCount 0 = h1.toNat % bitCount := by
  simp [indexAt]

@[simp] theorem indexAt_zero_right (h1 : U32) (bitCount i : Nat) :
    indexAt h1 0 bitCount i = h1.toNat % bitCount := by
  simp [indexAt]

theorem indices_head? (item : Packet) {hashCount : Nat} (hpos : 1 ≤ hashCount) (bitCount : Nat)
    (seed : U32) : (indices item hashCount bitCount seed).head? =
      some (indexAt (fnv item) (murmur item seed) bitCount 0) := by
  rw [indices, List.head?_map, List.head?_range, if_neg (by omega), Option.map_some]

/-- Settles O21, by `indexAt_eq`. -/
theorem indicesFollowTheRule : Obligations.IndicesFollowTheRule :=
  fun item hashCount bitCount seed _ => ⟨indices_length item hashCount bitCount seed,
    fun i hi => (indices_getD item hi bitCount seed).trans (indexAt_eq _ _ bitCount i)⟩

/-- Settles O23: the second hash enters an index only times the counter, so one of the two being 0
leaves `h1`. -/
theorem firstIndexIgnoresTheSeed : Obligations.FirstIndexIgnoresTheSeed := by
  constructor
  · intro item hashCount bitCount seed hpos
    rw [indices_head? item hpos, indexAt_zero]
  · intro item hashCount bitCount seed hzero i hi
    obtain ⟨k, -, rfl⟩ := mem_indices.1 hi
    rw [hzero, indexAt_zero_right]

/-! ### The bounds of a derived index (R142) -/

/-- Settles O22: an index is a remainder of `bitCount` and of a word; a buffer of exact length holds
every bit below BITCOUNT. -/
theorem derivedIndicesAreInRange : Obligations.DerivedIndicesAreInRange := by
  refine ⟨?bounds, ?exactBuffer, ?beyondBuffer⟩
  case bounds =>
    intro item hashCount bitCount seed hb i hi
    obtain ⟨k, -, rfl⟩ := mem_indices.1 hi
    exact ⟨indexAt_lt _ _ hb k, indexAt_lt_word _ _ bitCount k⟩
  case exactBuffer =>
    intro f item hb hn i hi
    have hlt : i < f.bitCount := filterIndices_lt hb hi
    have hbyte : i / 8 < f.nbytes := by omega
    exact ⟨by rw [inRange_natCast, decide_eq_true hbyte], hlt⟩
  case beyondBuffer =>
    intro f i hn
    rw [inRange_natCast, decide_eq_false hn.not_gt]

/-! ### INDICES (R141) -/

section
variable {hashCount bitCount : I64}

theorem exec_indices (hb : 0 < bitCount.toInt) (hk : 0 ≤ hashCount.toInt) (seed : U32)
    (item : Packet) (s : State) : exec (.indices hashCount bitCount seed item) s =
      respond (indexBytes (indices item (natCount hashCount) (natCount bitCount) seed)) s := by
  simp only [exec, execIndices, count, if_neg hb.not_ge, if_neg hk.not_gt]

theorem exec_indices_invalid (h : bitCount.toInt ≤ 0 ∨ hashCount.toInt < 0) (seed : U32)
    (item : Packet) (s : State) :
    exec (.indices hashCount bitCount seed item) s = raise .invalidParameter s := by
  simp only [exec, execIndices, count]
  obtain hb | hk := h
  · rw [if_pos hb]
  · rw [if_pos hk, ite_self]

end

/-- Settles O24: the two operand tests decide between `exec_indices` and `exec_indices_invalid`. -/
theorem indicesAnswers : Obligations.IndicesAnswers := by
  refine ⟨?encoding, ?answer, ?invalid⟩
  case encoding => exact fun _ _ _ _ => rfl
  case answer =>
    intro s hashCount bitCount seed item hb hk
    rw [exec_indices hb hk, respond_eq]
    rfl
  case invalid =>
    intro s hashCount bitCount seed item h
    rw [exec_indices_invalid h]
    rfl

end Sys2Proof.Machine
end

section
/-! Proofs of the BitStore's statements: what SETBIT, GETBIT and RDBITS answer and leave unchanged
(R150 to R154). -/

namespace Sys2Proof.Machine

/-! ### Without a filter (R233) -/

/-- The commands that need a filter raise NoFilter when none is held. -/
theorem exec_noFilter {i : Instr} {s : State} (hn : i.needsFilter = true) (hf : s.context = none) :
    exec i s = raise .noFilter s := by
  cases i
  case setbit | getbit | rdbits | add | contains | rdpar =>
    simp only [exec, execSetbit, execGetbit, execRdbits, execAdd, execContains, execRdpar, hf]
  case fnv1a | murmur3 | indices | size | newsz | newex | load => cases hn

/-! ### A bit index in range and the bit it addresses (R57, R151) -/

/-- R57: the two bounds of a bit index that is in range. -/
theorem inRange_iff {f : FilterContext} {i : Int} :
    inRange f i = true ↔ 0 ≤ i ∧ i.toNat / 8 < f.nbytes := by
  simp [inRange]

/-- R151's expression for the addressed bit. -/
theorem toNat_shiftRight_and_one (b : Byte) (k : Nat) :
    ((b >>> k) &&& 1#8).toNat = (b.getLsbD k).toNat := by
  rw [BitVec.and_one_eq_setWidth_ofBool_getLsbD, BitVec.getLsbD_ushiftRight, Nat.add_zero]
  cases b.getLsbD k <;> rfl

theorem flagBytes_eq (b : Bool) : flagBytes b = leBytes 4 b.toNat := by
  cases b <;> rfl

theorem toNat_isBitSet (f : FilterContext) (i : Int) : (isBitSet f i).toNat =
    if 0 ≤ i ∧ i.toNat / 8 < f.nbytes
    then ((memRead f (i.toNat / 8) >>> (i.toNat % 8)) &&& 1#8).toNat else 0 := by
  simp only [isBitSet, inRange_iff, toNat_shiftRight_and_one]
  split <;> rfl

/-! ### The commands (R152 to R154) -/

/-- Settles O25: SETBIT holds `setBit` of the filter, whose bytes `memRead_setBit` gives. -/
theorem setbitAnswers : Obligations.SetbitAnswers := by
  refine ⟨?encoding, ?noFilter, ?answer⟩
  case encoding => exact fun _ => rfl
  case noFilter => exact fun _ _ => exec_noFilter rfl
  case answer =>
    intro s f index hf hm
    refine ⟨_, exec_setbit hf index, setBit_eq f index.toInt, fun a => ?bytes, fun hout => ?outside⟩
    case bytes =>
      simp only [memRead_setBit _ a hm, inRange_iff, and_assoc, byteOf, maskOf]
    case outside =>
      refine setBit_outOfRange (Bool.eq_false_iff.2 fun hin => ?_)
      obtain ⟨hpos, hlt⟩ := inRange_iff.1 hin
      omega

/-- Settles O26, by `exec_getbit` and `toNat_isBitSet`. -/
theorem getbitAnswers : Obligations.GetbitAnswers := by
  refine ⟨?encoding, ?noFilter, ?answer⟩
  case encoding => exact fun _ => rfl
  case noFilter => exact fun _ _ => exec_noFilter rfl
  case answer =>
    intro s f index hf
    rw [exec_getbit hf, flagBytes_eq, toNat_isBitSet]
    rfl

/-- Settles O27: the data of `exec_rdbits` are the bytes of BITS in ascending address. -/
theorem rdbitsAnswers : Obligations.RdbitsAnswers := by
  refine ⟨?encoding, ?noFilter, ?answer⟩
  case encoding => rfl
  case noFilter => exact fun _ => exec_noFilter rfl
  case answer =>
    intro s f hf
    exact ⟨bufferBytes f, exec_rdbits hf, Memory.toBytes_length _ _,
      Memory.toBytes_getD f.bits f.nbytes⟩

end Sys2Proof.Machine
end

section
/-! Proofs of the SizingPolicy's statements: both sizes are the exact real formulas (R170, R171, R174), a
smaller tolerance gives no smaller bit count (R175), and what SIZE answers (R173). -/

namespace Sys2Proof.Machine

/-! ### The bit count over the reals (R170) -/

/-- Where the bounds of `sizeBits_between` agree they leave one value, and where they do not the model
takes the real ceiling. -/
theorem exactBits_eq (n : Nat) {t : F64} (h : toleranceOk t = true) :
    exactBits n t = max 1 ⌈sizeArg n t⌉₊ := by
  obtain ⟨hlow, hhigh⟩ := sizeBits_between n h
  unfold exactBits
  split
  next heq => exact le_antisymm (heq ▸ hlow) hhigh
  next => exact (realBits n t).property

/-- Settles O34, by `exactBits_eq`. -/
theorem sizeBitsIsExact : Obligations.SizeBitsIsExact := by
  intro c n t hc _ ht
  rw [sizeBits, hc]
  exact exactBits_eq n ht

/-! ### The hash count over the reals (R171) -/

/-- Below 2^63 no fraction separates `ln 2` from its upper bound. -/
theorem mul_ln2High_le_iff {m N : Nat} (hm : m < 2 ^ 63) :
    m * ln2High ≤ N * 2 ^ logBits ↔ (m : ℝ) * Real.log 2 ≤ N := by
  obtain ⟨hlow, hhigh⟩ := ln2_bounds
  have hP : (0 : ℝ) < 2 ^ logBits := by positivity
  have hm0 : (0 : ℝ) ≤ m := m.cast_nonneg
  constructor
  · intro h
    have hR : (m : ℝ) * ln2High ≤ N * 2 ^ logBits := by exact_mod_cast h
    refine le_of_mul_le_mul_right ?_ hP
    calc (m : ℝ) * Real.log 2 * 2 ^ logBits = m * (2 ^ logBits * Real.log 2) := by ring
      _ ≤ m * ln2High := by gcongr
      _ ≤ N * 2 ^ logBits := hR
  · intro h
    refine not_lt.1 (no_fraction_near_ln2 hm ?_)
    have hR : (m : ℝ) * ln2Low ≤ N * 2 ^ logBits := by
      calc (m : ℝ) * ln2Low ≤ m * (2 ^ logBits * Real.log 2) := by gcongr
        _ = m * Real.log 2 * 2 ^ logBits := by ring
        _ ≤ N * 2 ^ logBits := by gcongr
    exact_mod_cast hR

theorem exactHashes_eq {m n : Nat} (hm : m < 2 ^ 63) (hn : 1 ≤ n) :
    exactHashes m n = max 1 ⌈(m : ℝ) / n * Real.log 2⌉₊ := by
  have hnR : (0 : ℝ) < n := by exact_mod_cast hn
  rw [exactHashes, ceilDiv_eq_ceil _ _ (by positivity)]
  refine congrArg (max 1) (eq_of_forall_ge_iff fun k => ?_)
  calc ⌈((m * ln2High : ℕ) : ℝ) / ((n * 2 ^ logBits : ℕ) : ℝ)⌉₊ ≤ k
      ↔ ((m * ln2High : ℕ) : ℝ) ≤ k * ((n * 2 ^ logBits : ℕ) : ℝ) := by
        rw [Nat.ceil_le, div_le_iff₀ (by positivity)]
    _ ↔ m * ln2High ≤ k * n * 2 ^ logBits := by
        rw [mul_assoc k]
        exact_mod_cast Iff.rfl
    _ ↔ (m : ℝ) * Real.log 2 ≤ ((k * n : ℕ) : ℝ) := mul_ln2High_le_iff hm
    _ ↔ ⌈(m : ℝ) / n * Real.log 2⌉₊ ≤ k := by
        rw [Nat.ceil_le, div_mul_eq_mul_div, div_le_iff₀ hnR, Nat.cast_mul]

/-- Settles O35, by `exactHashes_eq`. -/
theorem sizeHashesIsExact : Obligations.SizeHashesIsExact := by
  intro c m n hc _ hm hn _
  rw [sizeHashes, hc]
  exact exactHashes_eq (Nat.lt_succ_of_le hm) hn

/-! ### Positive patterns are ordered as their values (R82) -/

theorem toNat_eq_of_f64Sign {t : F64} (h : f64Sign t = false) :
    t.toNat = f64Exponent t * 2 ^ 52 + f64Fraction t := by
  have hlt : t.toNat < 2 ^ 63 := by
    rw [f64Sign, ← BitVec.msb_eq_getLsbD_last] at h
    simpa using BitVec.toNat_lt_of_msb_false h
  simp only [f64Exponent, f64Fraction, BitVec.extractLsb'_toNat, Nat.shiftRight_eq_div_pow]
  omega

/-- A magnitude lies below the powers of two of the next exponent. -/
theorem f64Magnitude_lt (t : F64) :
    f64Significand t * 2 ^ f64Scale t < 2 ^ 52 * 2 ^ f64Exponent t := by
  have hfrac := f64Fraction_lt t
  unfold f64Significand f64Scale
  split
  next h0 => simpa [h0] using hfrac
  next h0 =>
    obtain ⟨e, he⟩ := Nat.exists_eq_add_one_of_ne_zero h0
    rw [he, Nat.add_sub_cancel, pow_succ' 2 e, ← mul_assoc]
    exact Nat.mul_lt_mul_of_pos_right (by omega) (by positivity)

theorem f64Magnitude_ge {t : F64} (h : f64Exponent t ≠ 0) :
    2 ^ 52 * 2 ^ f64Scale t ≤ f64Significand t * 2 ^ f64Scale t := by
  rw [f64Significand, if_neg h]
  exact Nat.mul_le_mul_right _ (Nat.le_add_right _ _)

theorem f64Magnitude_strictMono {t u : F64} (ht : f64Sign t = false) (hu : f64Sign u = false)
    (h : u.toNat < t.toNat) :
    f64Significand u * 2 ^ f64Scale u < f64Significand t * 2 ^ f64Scale t := by
  rw [toNat_eq_of_f64Sign ht, toNat_eq_of_f64Sign hu] at h
  have hft := f64Fraction_lt t
  have hfu := f64Fraction_lt u
  obtain heq | hlt : f64Exponent u = f64Exponent t ∨ f64Exponent u < f64Exponent t := by omega
  · have hfrac : f64Fraction u < f64Fraction t := by omega
    have hsig : f64Significand u < f64Significand t := by
      unfold f64Significand
      rw [heq]
      split <;> omega
    rw [f64Scale, f64Scale, heq]
    exact Nat.mul_lt_mul_of_pos_right hsig (by positivity)
  · have hscale : f64Exponent u ≤ f64Scale t := Nat.le_sub_one_of_lt hlt
    calc f64Significand u * 2 ^ f64Scale u < 2 ^ 52 * 2 ^ f64Exponent u := f64Magnitude_lt u
      _ ≤ 2 ^ 52 * 2 ^ f64Scale t := by gcongr; norm_num
      _ ≤ f64Significand t * 2 ^ f64Scale t := f64Magnitude_ge (by omega)

theorem toNat_le_of_f64Real_le {t u : F64} (ht : f64Sign t = false) (hu : f64Sign u = false)
    (h : f64Real t ≤ f64Real u) : t.toNat ≤ u.toNat := by
  by_contra hlt
  have hmag := f64Magnitude_strictMono ht hu (not_le.1 hlt)
  have hmagR : (f64Significand u : ℝ) * 2 ^ f64Scale u < f64Significand t * 2 ^ f64Scale t := by
    exact_mod_cast hmag
  have hR : ((f64Real t : ℚ) : ℝ) ≤ ((f64Real u : ℚ) : ℝ) := by exact_mod_cast h
  rw [f64Real_pos_eq ht, f64Real_pos_eq hu, div_le_div_iff_of_pos_right (by positivity)] at hR
  exact hR.not_gt hmagR

/-! ### Monotonicity (R175) -/

section
variable {t u : F64} (ht : toleranceOk t = true) (hu : toleranceOk u = true)
  (h : f64Real t ≤ f64Real u)
include ht h

theorem sizeArg_antitone (n : Nat) : sizeArg n u ≤ sizeArg n t := by
  have hlog : Real.log ((f64Real t : ℚ) : ℝ) ≤ Real.log ((f64Real u : ℚ) : ℝ) :=
    Real.log_le_log (f64Real_pos ht) (by exact_mod_cast h)
  unfold sizeArg
  refine div_le_div_of_nonneg_right (mul_le_mul_of_nonpos_left hlog ?_) (sq_nonneg _)
  exact neg_nonpos.2 n.cast_nonneg

include hu

theorem exactBits_antitone (n : Nat) : exactBits n u ≤ exactBits n t := by
  rw [exactBits_eq n ht, exactBits_eq n hu]
  exact max_le_max le_rfl (Nat.ceil_mono (sizeArg_antitone ht h n))

end

theorem substituteBits_monotone (n : Nat) : Monotone (substituteBits n) :=
  monotone_nat_of_le_succ fun _ => Nat.le_add_right _ _

/-- Settles O36: under `exact` by the logarithm, under `substitute` by the order of the patterns. -/
theorem sizingIsMonotone : Obligations.SizingIsMonotone := by
  intro c n t u _ _ ht hu h
  unfold sizeBits
  split
  next => exact exactBits_antitone ht hu h n
  next =>
    obtain ⟨-, hst, -⟩ := (toleranceOk_iff t).1 ht
    obtain ⟨-, hsu, -⟩ := (toleranceOk_iff u).1 hu
    exact substituteBits_monotone n (Nat.sub_le_sub_left (toNat_le_of_f64Real_le hst hsu h) _)

/-! ### The bounds of both sizes (R172, R173) -/

/-- Settles O37, by `sizeBits_pos` and `sizeHashes_bounds`. -/
theorem sizesAreAtLeastOne : Obligations.SizesAreAtLeastOne :=
  fun c n _ t hn hm => ⟨sizeBits_pos c n t, sizeHashes_bounds c hm hn⟩

/-! ### SIZE (R173) -/

section
variable {n : I64} {tol : F64} {s : State}

theorem exec_size_invalid (h : toleranceOk tol = false ∨ n.toInt ≤ 0) :
    exec (.size n tol) s = raise .invalidParameter s := by
  simp only [exec, execSize]
  split
  · rfl
  next htol => exact if_pos (h.resolve_left htol)

theorem exec_size_unrepresentable (htol : toleranceOk tol = true) (hn : 0 < n.toInt)
    (hm : maxCount < sizeBits s.config (natCount n) tol) :
    exec (.size n tol) s = raise .unrepresentable s := by
  have hrep : representable (sizeBits s.config (natCount n) tol) = false :=
    decide_eq_false hm.not_ge
  simp [exec, execSize, htol, hn.not_ge, hrep]

theorem exec_size_ok (htol : toleranceOk tol = true) (hn : 0 < n.toInt)
    (hm : sizeBits s.config (natCount n) tol ≤ maxCount) :
    exec (.size n tol) s = respond (countBytes (sizeBits s.config (natCount n) tol) ++
      countBytes (sizeHashes s.config (sizeBits s.config (natCount n) tol) (natCount n))) s := by
  have hrep := (representable_iff _).2 hm
  simp [exec, execSize, htol, hn.not_ge, hrep]

end

/-- Settles O38: one lemma of SIZE for each clause. -/
theorem sizeAnswers : Obligations.SizeAnswers := by
  refine ⟨?encoding, ?invalid, ?unrepresentable, ?answer⟩
  case encoding => exact fun _ _ => rfl
  case invalid => exact fun _ _ _ => exec_size_invalid
  case unrepresentable => exact fun _ _ _ => exec_size_unrepresentable
  case answer => exact fun _ _ _ => exec_size_ok

end Sys2Proof.Machine
end

section
/-! Proof of the statement about the tolerance test: it is the test of R192 on the exact value of a
pattern. -/

namespace Sys2Proof.Machine

/-! ### The exact value of a pattern, compared with 0 and 1 (R192) -/

/-- The magnitude is not negative, so the value has the sign of the pattern. -/
theorem f64Real_pos_iff (t : F64) :
    0 < f64Real t ↔ f64Sign t = false ∧ 0 < f64Significand t := by
  have hscale : (0 : ℚ) < 2 ^ f64Scale t / 2 ^ 1074 := by positivity
  unfold f64Real
  rw [mul_div_assoc]
  cases f64Sign t
  · simp [mul_pos_iff_of_pos_right hscale]
  · have hnonneg : (0 : ℚ) ≤ f64Significand t * (2 ^ f64Scale t / 2 ^ 1074) := by positivity
    simpa using hnonneg

theorem f64Real_lt_one_iff_magnitude {t : F64} (h : f64Sign t = false) :
    f64Real t < 1 ↔ f64Significand t * 2 ^ f64Scale t < 2 ^ 1074 := by
  have hbound : (0 : ℚ) < 2 ^ 1074 := by positivity
  rw [f64Real, h, if_neg Bool.false_ne_true, one_mul, div_lt_one hbound]
  exact_mod_cast Iff.rfl

/-- A magnitude lies below a power of two exactly when its exponent does. -/
theorem f64Magnitude_lt_pow_iff (t : F64) (k : Nat) :
    f64Significand t * 2 ^ f64Scale t < 2 ^ (52 + k) ↔ f64Exponent t ≤ k := by
  rw [pow_add]
  constructor
  · intro hlt
    by_contra hexp
    have hscale : k ≤ f64Scale t := Nat.le_sub_one_of_lt (not_le.1 hexp)
    refine hlt.not_ge ?_
    calc 2 ^ 52 * 2 ^ k ≤ 2 ^ 52 * 2 ^ f64Scale t := by gcongr; norm_num
      _ ≤ f64Significand t * 2 ^ f64Scale t := f64Magnitude_ge (by omega)
  · intro hexp
    calc f64Significand t * 2 ^ f64Scale t < 2 ^ 52 * 2 ^ f64Exponent t := f64Magnitude_lt t
      _ ≤ 2 ^ 52 * 2 ^ k := by gcongr; norm_num

/-- The exponents below the bias are those of the magnitudes below 1. -/
theorem f64Real_lt_one_iff {t : F64} (h : f64Sign t = false) :
    f64Real t < 1 ↔ f64Exponent t < 1023 := by
  have hbias : 1074 = 52 + 1022 := rfl
  rw [f64Real_lt_one_iff_magnitude h, hbias, f64Magnitude_lt_pow_iff, Nat.lt_succ_iff]

/-- Settles O33, by `f64Real_pos_iff` and `f64Real_lt_one_iff`: an exponent below the bias is not
2047. -/
theorem toleranceTestIsExact : Obligations.ToleranceTestIsExact := by
  intro t
  rw [toleranceOk_iff, f64Real_pos_iff]
  constructor
  · rintro ⟨hexp, hpos⟩
    exact ⟨by omega, hpos, (f64Real_lt_one_iff hpos.1).2 hexp⟩
  · rintro ⟨-, hpos, hlt⟩
    exact ⟨(f64Real_lt_one_iff hpos.1).1 hlt, hpos⟩

end Sys2Proof.Machine
end

section
/-! Proofs of the statements about the constructions: what NEWSZ, NEWEX and LOAD answer and hold
(R186 to R188), and that what was held before takes no part in it (R185). -/

namespace Sys2Proof.Machine

/-! ### NEWSZ (R186) -/

theorem exceedsCapacity_eq_false {c : Config} {n : Nat} (h : n ≤ c.maxBytes) :
    exceedsCapacity c n = false := decide_eq_false h.not_gt

theorem exec_newsz_respond {n : I64} {tol : F64} {s : State} (htol : toleranceOk tol = true)
    (hn : 0 < n.toInt) (hm : sizeBits s.config (natCount n) tol ≤ maxCount)
    (hcap : bufferLength (sizeBits s.config (natCount n) tol) ≤ s.config.maxBytes) (seed : U32) :
    exec (.newsz n tol seed) s =
      respond (countBytes (sizedFilter s.config (natCount n) tol seed).bitCount ++
          countBytes (sizedFilter s.config (natCount n) tol seed).hashCount)
        (hold (sizedFilter s.config (natCount n) tol seed) s) := by
  have hrep := (representable_iff _).2 hm
  simp [exec, execNewsz, htol, hn.not_ge, hrep, exceedsCapacity_eq_false hcap, sizedFilter]

/-- Settles O39: one lemma of NEWSZ for each clause; the filter it holds lists no byte. -/
theorem newszAnswers : Obligations.NewszAnswers := by
  refine ⟨?encoding, ?invalid, ?tooLarge, ?answer⟩
  case encoding => exact fun _ _ _ => rfl
  case invalid => exact fun _ _ _ seed h => exec_newsz_invalid h seed
  case tooLarge =>
    rintro s n tol seed _ htol hn rfl
    exact ⟨fun hm => exec_newsz_unrepresentable htol hn hm seed,
      fun hm hcap => exec_newsz_capacityExceeded htol hn hm hcap seed⟩
  case answer =>
    rintro s n tol seed _ _ htol hn rfl rfl hm hcap
    exact ⟨sizedFilter s.config (natCount n) tol seed, exec_newsz_respond htol hn hm hcap seed,
      rfl, rfl, rfl, rfl, rfl, rfl, rfl, rfl, fun _ _ => rfl⟩

/-! ### NEWEX and LOAD (R187, R188) -/

/-- The filter that NEWEX and LOAD hold, with the buffer of either. -/
def explicitFilter (bitCount hashCount itemCount : I64) (tol : F64) (seed : U32) (nbytes : Nat)
    (bits : List Host.Cell) : FilterContext where
  bitCount := natCount bitCount
  hashCount := natCount hashCount
  seed := seed
  tol := tol
  itemCount := natCount itemCount
  nbytes := nbytes
  bits := bits

section
variable {bitCount hashCount itemCount : I64} {tol : F64} {bytes : Packet} {s : State}

theorem explicitCountsOk_eq_false (h : toleranceOk tol = false ∨ bitCount.toInt ≤ 0 ∨
    hashCount.toInt ≤ 0 ∨ itemCount.toInt < 0) :
    explicitCountsOk bitCount hashCount itemCount tol = false := by
  rw [Bool.eq_false_iff, ne_eq, explicitCountsOk_iff]
  rintro ⟨htol, hb, hk, hi⟩
  obtain h | h | h | h := h
  · simp [htol] at h
  all_goals omega

theorem exec_newex_invalid (h : explicitCountsOk bitCount hashCount itemCount tol = false)
    (seed : U32) :
    exec (.newex bitCount hashCount itemCount tol seed) s = raise .invalidParameter s := by
  simp only [exec, execNewex, h, if_true]

theorem exec_newex_capacityExceeded (h : explicitCountsOk bitCount hashCount itemCount tol = true)
    (hcap : s.config.maxBytes < bufferLength (natCount bitCount)) (seed : U32) :
    exec (.newex bitCount hashCount itemCount tol seed) s = raise .capacityExceeded s := by
  simp [exec, execNewex, h, (exceedsCapacity_iff _ _).2 hcap]

theorem exec_newex_ok (h : explicitCountsOk bitCount hashCount itemCount tol = true)
    (hcap : bufferLength (natCount bitCount) ≤ s.config.maxBytes) (seed : U32) :
    exec (.newex bitCount hashCount itemCount tol seed) s =
      respond [] (hold (explicitFilter bitCount hashCount itemCount tol seed
        (bufferLength (natCount bitCount)) []) s) := by
  simp [exec, execNewex, h, exceedsCapacity_eq_false hcap, explicitFilter]

theorem exec_load_invalid
    (h : bytes = [] ∨ explicitCountsOk bitCount hashCount itemCount tol = false) (seed : U32) :
    exec (.load bitCount hashCount itemCount tol seed bytes) s = raise .invalidParameter s := by
  simp only [exec, execLoad]
  split
  · rfl
  next hne => exact if_pos (h.resolve_left fun hnil => hne (by rw [hnil, List.length_nil]))

theorem exec_load_capacityExceeded (hne : bytes ≠ [])
    (h : explicitCountsOk bitCount hashCount itemCount tol = true)
    (hcap : s.config.maxBytes < bytes.length) (seed : U32) :
    exec (.load bitCount hashCount itemCount tol seed bytes) s = raise .capacityExceeded s := by
  simp [exec, execLoad, hne, h, (exceedsCapacity_iff _ _).2 hcap]

theorem exec_load_ok (hne : bytes ≠ [])
    (h : explicitCountsOk bitCount hashCount itemCount tol = true)
    (hcap : bytes.length ≤ s.config.maxBytes) (seed : U32) :
    exec (.load bitCount hashCount itemCount tol seed bytes) s =
      respond (flagBytes (decide (bytes.length ≠ bufferLength (natCount bitCount))))
        (hold (explicitFilter bitCount hashCount itemCount tol seed bytes.length
          (Memory.ofBytes 0 bytes)) s) := by
  simp [exec, execLoad, hne, h, exceedsCapacity_eq_false hcap, explicitFilter]

end

/-- Settles O40: `explicitCountsOk` and the capacity decide between the three lemmas of NEWEX. -/
theorem newexAnswers : Obligations.NewexAnswers := by
  refine ⟨?encoding, ?invalid, ?tooLarge, ?answer⟩
  case encoding => exact fun _ _ _ _ _ => rfl
  case invalid =>
    exact fun _ _ _ _ _ seed h => exec_newex_invalid (explicitCountsOk_eq_false h) seed
  case tooLarge =>
    intro s bitCount hashCount itemCount tol seed htol hb hk hi hcap
    have hok := (explicitCountsOk_iff _ _ _ _).2 ⟨htol, hb, hk, hi⟩
    exact exec_newex_capacityExceeded hok hcap seed
  case answer =>
    intro s bitCount hashCount itemCount tol seed htol hb hk hi hcap
    have hok := (explicitCountsOk_iff _ _ _ _).2 ⟨htol, hb, hk, hi⟩
    exact ⟨_, exec_newex_ok hok hcap seed, rfl, rfl, rfl, rfl, rfl, rfl, rfl, rfl, fun _ _ => rfl⟩

/-- MISMATCH as the rule writes it: four zero bytes when the two lengths agree (R88, R188). -/
theorem flagBytes_decide_ne (a b : Nat) :
    flagBytes (decide (a ≠ b)) = if a = b then [0, 0, 0, 0] else [1, 0, 0, 0] := by
  by_cases h : a = b
  · rw [if_pos h, decide_eq_false (not_not.2 h)]
    rfl
  · rw [if_neg h, decide_eq_true h]
    rfl

/-- Settles O41: the lemmas of LOAD, and `Memory.ofBytes`, whose reads are the bytes given. -/
theorem loadAnswers : Obligations.LoadAnswers := by
  refine ⟨?encoding, ?invalid, ?tooLarge, ?answer⟩
  case encoding => exact fun _ _ _ _ _ _ => rfl
  case invalid =>
    exact fun _ _ _ _ _ seed _ h => exec_load_invalid (h.imp_right explicitCountsOk_eq_false) seed
  case tooLarge =>
    intro s bitCount hashCount itemCount tol seed bytes hne htol hb hk hi hcap
    have hok := (explicitCountsOk_iff _ _ _ _).2 ⟨htol, hb, hk, hi⟩
    exact exec_load_capacityExceeded hne hok hcap seed
  case answer =>
    intro s bitCount hashCount itemCount tol seed bytes hne htol hb hk hi hcap
    have hok := (explicitCountsOk_iff _ _ _ _).2 ⟨htol, hb, hk, hi⟩
    have hexec := exec_load_ok hne hok hcap seed
    rw [flagBytes_decide_ne] at hexec
    have hbelow : Memory.below bytes.length (Memory.ofBytes 0 bytes) = true := by
      simpa using Memory.below_ofBytes 0 bytes
    exact ⟨_, hexec, rfl, rfl, rfl, rfl, rfl, rfl, Memory.wf_ofBytes bytes, hbelow,
      fun a _ => Memory.read_ofBytes a bytes⟩

/-! ### What was held before a construction (R185) -/

/-- A construction fails with the same status in every context, or it answers and holds the same in
every context. -/
theorem exec_construction_ignores_context {i : Instr} (h : i.isConstruction = true) (s : State) :
    (∃ st, st ≠ Status.ok ∧
      ∀ c, exec i { s with context := c } = raise st { s with context := c }) ∨
    ∃ results f, ∀ c, exec i { s with context := c } =
      respond results (hold f { s with context := c }) := by
  cases i
  case newsz | newex | load =>
    simp only [exec, execNewsz, execNewex, execLoad]
    split_ifs
    case neg => exact .inr ⟨_, _, fun _ => rfl⟩
    all_goals exact .inl ⟨_, by decide, fun _ => rfl⟩
  all_goals cases h

theorem statusCode_ne_zero {st : Status} (h : st ≠ .ok) : statusCode st ≠ 0 := by
  cases st
  case ok => exact absurd rfl h
  all_goals decide

/-- Settles O42, by `exec_construction_ignores_context`: the status word tells its two cases
apart. -/
theorem constructionReplacesTheFilter : Obligations.ConstructionReplacesTheFilter := by
  intro i s c hc
  obtain ⟨st, hst, he⟩ | ⟨results, f, he⟩ := exec_construction_ignores_context hc s
  · refine ⟨_, _, failurePacket st, he s.context, he c, rfl, rfl, fun hzero => ?_,
      fun _ => ⟨rfl, rfl⟩⟩
    rw [statusWord_failurePacket] at hzero
    exact absurd hzero (statusCode_ne_zero hst)
  · exact ⟨_, _, okPacket results, he s.context, he c, rfl, rfl, fun _ => ⟨rfl, rfl⟩,
      fun hne => absurd (statusWord_okPacket results) hne⟩

end Sys2Proof.Machine
end

section
/-! Proofs of the statements about ADD, CONTAINS and RDPAR: what they answer and leave unchanged
(R189 to R191), that an added item is found from then on (R194), and that repeating or reordering
ADDs changes nothing (R195, R196). -/

namespace Sys2Proof.Machine

/-! ### RDPAR (R191) -/

/-- Settles O45, by `exec_rdpar`; the statement brackets the fields from the left. -/
theorem rdparAnswers : Obligations.RdparAnswers := by
  refine ⟨rfl, fun _ => exec_noFilter rfl, fun s f hf => ?_⟩
  rw [exec_rdpar hf, respond_eq]
  simp only [List.append_assoc]
  rfl

/-! ### ADD (R189) -/

/-- A bit after a sequence of `SetBit`, as a proposition (R189). -/
theorem isBitSet_setBits_iff {f : FilterContext} (hm : Memory.wf f.bits = true) (is : List Nat)
    (j : Nat) : isBitSet (setBits f is) (j : Int) = true ↔
      isBitSet f (j : Int) = true ∨ (j / 8 < f.nbytes ∧ j ∈ is) := by
  simp [isBitSet_setBits is j hm, inRange_natCast]

/-- Settles O43: ADD holds `addItem` of the filter, a sequence of `SetBit`. -/
theorem addAnswers : Obligations.AddAnswers := by
  refine ⟨?encoding, ?noFilter, ?answer⟩
  case encoding => exact fun _ => rfl
  case noFilter => exact fun _ _ => exec_noFilter rfl
  case answer =>
    intro s f item hf hm
    exact ⟨addItem f item, exec_add hf item, setBits_eq f _, setBits_wf _ hm,
      isBitSet_setBits_iff hm (filterIndices f item), fun a => memRead_setBits _ a hm⟩

/-! ### CONTAINS (R190) -/

theorem containsItem_iff {f : FilterContext} {item : Packet} : containsItem f item = true ↔
    ∀ i ∈ filterIndices f item, i / 8 < f.nbytes ∧ (memRead f (i / 8)).getLsbD (i % 8) = true := by
  simp [containsItem, isBitSet_natCast]

section
variable {s : State} {f : FilterContext} {item : Packet} (hf : s.context = some f)
include hf

theorem exec_contains_member (h : containsItem f item = true) : exec (.contains item) s =
    .next { s with responses := s.responses ++ [[0, 0, 0, 0, 1, 0, 0, 0]] } := by
  rw [exec_contains hf, h]
  rfl

theorem exec_contains_notMember (h : containsItem f item = false) : exec (.contains item) s =
    .next { s with responses := s.responses ++ [[0, 0, 0, 0, 0, 0, 0, 0]] } := by
  rw [exec_contains hf, h]
  rfl

end

/-- Settles O44: `containsItem_iff` decides between the two answers. -/
theorem containsAnswers : Obligations.ContainsAnswers := by
  refine ⟨?encoding, ?noFilter, fun s f item hf => ⟨fun hall => ?member, fun hex => ?notMember⟩⟩
  case encoding => exact fun _ => rfl
  case noFilter => exact fun _ _ => exec_noFilter rfl
  case member => exact exec_contains_member hf (containsItem_iff.2 hall)
  case notMember =>
    obtain ⟨i, hi, hunset⟩ := hex
    exact exec_contains_notMember hf
      (Bool.eq_false_iff.2 fun h => hunset (containsItem_iff.1 h i hi))

/-- Settles O54: the first index tests a zero byte, or every index tests a byte of ones inside the
buffer. -/
theorem emptyAndFullFilters : Obligations.EmptyAndFullFilters := by
  refine fun s f item hf hb hk => ⟨fun hzero => ?empty, fun hones hcov => ?full⟩
  case empty =>
    refine exec_contains_notMember hf (Bool.eq_false_iff.2 fun h => ?_)
    obtain ⟨hbyte, hbit⟩ := containsItem_iff.1 h _ (mem_indices.2 ⟨0, hk, rfl⟩)
    rw [hzero _ hbyte] at hbit
    simp at hbit
  case full =>
    refine exec_contains_member hf (containsItem_iff.2 fun i hi => ?_)
    have hlt := filterIndices_lt hb hi
    have hcov' : f.bitCount ≤ 8 * f.nbytes := of_decide_eq_true hcov
    have hbyte : i / 8 < f.nbytes := by omega
    have hbits : ∀ k < 8, (0xff : Byte).getLsbD k = true := by decide
    rw [hones _ hbyte]
    exact ⟨hbyte, hbits _ (Nat.mod_lt _ (by decide))⟩

/-! ### An added item is found (R194) -/

/-- A filter that holds an item as far as CONTAINS can tell, in canonical memory. -/
def State.Finds (item : Packet) (s : State) : Prop :=
  ∃ f, s.context = some f ∧ Memory.wf f.bits = true ∧ containsItem f item = true

theorem execAll_next (is : List Instr) (s : State) : ∃ t, execAll is s = .next t := by
  induction is generalizing s with
  | nil => exact ⟨s, rfl⟩
  | cons i is ih =>
    obtain ⟨r, u, -, he, -⟩ := exec_answers i s
    rw [execAll, he]
    exact ih _

/-- Setting bits unsets none, so an item that is found stays found. -/
theorem containsItem_setBits {f : FilterContext} {item : Packet} (hm : Memory.wf f.bits = true)
    (h : containsItem f item = true) (is : List Nat) : containsItem (setBits f is) item = true := by
  rw [containsItem, List.all_eq_true] at h ⊢
  rw [filterIndices_setBits]
  exact fun i hi => (isBitSet_setBits_iff hm is i).2 (.inl (h i hi))

/-- An item whose indices are in range is found once they are set. -/
theorem containsItem_addItem {f : FilterContext} {item : Packet} (hm : Memory.wf f.bits = true)
    (h : ∀ i ∈ filterIndices f item, i / 8 < f.nbytes) :
    containsItem (addItem f item) item = true := by
  rw [containsItem, List.all_eq_true, addItem, filterIndices_setBits]
  exact fun i hi => (isBitSet_setBits_iff hm _ i).2 (.inr ⟨h i hi, hi⟩)

/-- A command that is no construction leaves an item that is found to be found. -/
theorem State.Finds.exec {item : Packet} {s t : State} {i : Instr} (hs : s.Finds item)
    (hc : i.isConstruction = false) (h : Machine.exec i s = .next t) : t.Finds item := by
  obtain ⟨f, hf, hm, hfound⟩ := hs
  obtain ⟨r, is, he⟩ := exec_held hc hf
  cases h.symm.trans he
  exact ⟨setBits f is, rfl, setBits_wf is hm, containsItem_setBits hm hfound is⟩

theorem execAll_add_contains {s : State} {f : FilterContext} {item : Packet} {is : List Instr}
    (hf : s.context = some f) (hm : Memory.wf f.bits = true)
    (hrange : ∀ i ∈ filterIndices f item, i / 8 < f.nbytes)
    (hc : ∀ i ∈ is, i.isConstruction = false) :
    ∃ t, execAll (.add item :: is) s = .next t ∧ exec (.contains item) t =
      .next { t with responses := t.responses ++ [[0, 0, 0, 0, 1, 0, 0, 0]] } := by
  have hadd : (emit (okPacket []) (hold (addItem f item) s)).Finds item :=
    ⟨addItem f item, rfl, setBits_wf _ hm, containsItem_addItem hm hrange⟩
  obtain ⟨t, ht⟩ := execAll_next is (emit (okPacket []) (hold (addItem f item) s))
  obtain ⟨g, hg, -, hfound⟩ : t.Finds item :=
    execAll_invariant (fun i hi _ _ hu hv => hu.exec (hc i hi) hv) hadd ht
  refine ⟨t, ?_, exec_contains_member hg hfound⟩
  rw [execAll, exec_add hf]
  exact ht

/-- Settles O46, by `execAll_add_contains`: every index is below BITCOUNT, so a buffer that covers
BITCOUNT bits has all of them in range. -/
theorem noFalseNegatives : Obligations.NoFalseNegatives := by
  refine ⟨fun s f item is hf hm hrange hc => execAll_add_contains hf hm hrange hc,
    fun s f item is hf hm hb hcov hc => execAll_add_contains hf hm (fun i hi => ?_) hc⟩
  have hlt := filterIndices_lt hb hi
  have hcov' : f.bitCount ≤ 8 * f.nbytes := of_decide_eq_true hcov
  omega

/-! ### Repeating and reordering ADDs (R195, R196) -/

/-- In canonical memory the bits that are set depend on which indices occur, not on their order or
number. -/
theorem setBits_congr {f : FilterContext} (hm : Memory.wf f.bits = true)
    (hb : Memory.below f.nbytes f.bits = true) {is js : List Nat} (h : ∀ j, j ∈ is ↔ j ∈ js) :
    setBits f is = setBits f js := by
  refine FilterContext.ext_of_bits (by simp) (by simp) (by simp) (by simp) (by simp) (by simp)
    (setBits_wf is hm) (setBits_wf js hm) ?_ ?_ fun j => ?_
  · simpa using setBits_below is hb
  · simpa using setBits_below js hb
  · rw [Bool.eq_iff_iff, isBitSet_setBits_iff hm, isBitSet_setBits_iff hm, h j]

theorem setBits_itemIndices_cons (f : FilterContext) (x : Packet) (items : List Packet) :
    setBits f (itemIndices f (x :: items)) =
      setBits (addItem f x) (itemIndices (addItem f x) items) := by
  rw [itemIndices, List.flatMap_cons, setBits_append, itemIndices, addItem, filterIndices_setBits]

/-- The whole state after ADDs one after another: the bits of all their items, an OK for each. -/
theorem execAll_adds_eq (items : List Packet) {s : State} {f : FilterContext}
    (hf : s.context = some f) : execAll (items.map .add) s = .next
      { s with context := some (setBits f (itemIndices f items)),
               responses := s.responses ++ List.replicate items.length (okPacket []) } := by
  induction items generalizing s f with
  | nil => simp [itemIndices, execAll, ← hf]
  | cons x items ih =>
    rw [List.map_cons, execAll, exec_add hf x, setBits_itemIndices_cons]
    refine (ih (f := addItem f x) rfl).trans ?_
    simp [List.replicate_succ]

/-- Settles O47: the second ADD derives the indices of the first. -/
theorem addIsIdempotent : Obligations.AddIsIdempotent := by
  intro s f item hf hm hb
  refine ⟨_, _, exec_add hf item, execAll_adds_eq [item, item] hf, ?_⟩
  exact congrArg some (setBits_congr hm hb fun j => by simp [itemIndices])

/-- Settles O48, by `execAll_adds_eq`: reordered items have the same indices and as many answers. -/
theorem addOrderDoesNotMatter : Obligations.AddOrderDoesNotMatter := by
  constructor
  · intro s f items hf hm
    refine ⟨_, _, execAll_adds_eq items hf, rfl, fun j => ?_⟩
    rw [isBitSet_setBits_iff hm, mem_itemIndices]
    rfl
  · intro s f xs ys hf hm hb hperm
    have hsame : setBits f (itemIndices f xs) = setBits f (itemIndices f ys) :=
      setBits_congr hm hb fun j => by simp only [mem_itemIndices, hperm.mem_iff]
    refine ⟨_, execAll_adds_eq xs hf, ?_⟩
    rw [execAll_adds_eq ys hf, hsame, hperm.length_eq]

end Sys2Proof.Machine
end

section
/-! Proof of the statement about saving and loading: LOAD of what RDPAR and RDBITS answered holds
the same filter (R198). -/

namespace Sys2Proof.Machine

/-- The six operands of LOAD, read at their offsets from the two responses. -/
theorem load_of_responses {f : FilterContext} (hb : f.bitCount ≤ maxCount)
    (hk : f.hashCount ≤ maxCount) (hi : f.itemCount ≤ maxCount) :
    let p := okPacket (parameterBytes f)
    let b := okPacket (lengthBytes f.nbytes ++ bufferBytes f)
    Instr.load (i64At p 4) (i64At p 12) (i64At p 20) (f64At p 28) (u32At p 36) (b.drop 8) =
      .load (BitVec.ofNat 64 f.bitCount) (BitVec.ofNat 64 f.hashCount)
        (BitVec.ofNat 64 f.itemCount) f.tol f.seed (bufferBytes f) := by
  have h := restoreCommand_saveContainer hb hk hi
  simpa only [saveContainer, restoreCommand, base64Decode_base64Encode, Option.map_some,
    Option.some_inj] using h

/-- LOAD of the registers and the bytes of a legal filter holds that filter and reports a buffer of
another length than `ceil(BITCOUNT / 8)` (R188). -/
theorem exec_load_of_wf {c : Config} {f : FilterContext} {u : State} (hf : f.wf c = true)
    (hcap : f.nbytes ≤ u.config.maxBytes) :
    exec (.load (BitVec.ofNat 64 f.bitCount) (BitVec.ofNat 64 f.hashCount)
        (BitVec.ofNat 64 f.itemCount) f.tol f.seed (bufferBytes f)) u =
      respond (flagBytes (decide (f.nbytes ≠ bufferLength f.bitCount))) (hold f u) := by
  obtain ⟨⟨hb, hbm⟩, ⟨hk, hkm⟩, him, ht, ⟨hn, -⟩, hm, hbelow⟩ := (f.wf_iff c).1 hf
  have hlen : (bufferBytes f).length = f.nbytes := Memory.toBytes_length _ _
  have hne : bufferBytes f ≠ [] := List.length_pos_iff.1 (by omega)
  have hok : explicitCountsOk (BitVec.ofNat 64 f.bitCount) (BitVec.ofNat 64 f.hashCount)
      (BitVec.ofNat 64 f.itemCount) f.tol = true := by
    rw [explicitCountsOk_iff, toInt_ofNat_of_le hbm, toInt_ofNat_of_le hkm, toInt_ofNat_of_le him]
    exact ⟨ht, by omega, by omega, by omega⟩
  rw [exec_load_ok hne hok (hlen.trans_le hcap), explicitFilter, natCount_ofNat hbm,
    natCount_ofNat hkm, natCount_ofNat him, hlen, bufferBytes, Memory.ofBytes_toBytes hm hbelow]

/-- Settles O49, by `load_of_responses` and `exec_load_of_wf`. -/
theorem saveAndLoadGiveTheSameFilter : Obligations.SaveAndLoadGiveTheSameFilter := by
  intro s u f hs hf hcap
  obtain ⟨hcfg, hctx, -⟩ := s.wf_iff.1 hs
  have hwf := hctx f hf
  obtain ⟨⟨-, hb⟩, ⟨-, hk⟩, hi, -, ⟨-, hn⟩, -⟩ := (f.wf_iff s.config).1 hwf
  refine ⟨_, _, exec_rdpar hf, exec_rdbits hf, ?_⟩
  rw [load_of_responses hb hk hi, exec_load_of_wf hwf hcap, flagBytes_decide_ne]
  refine ⟨decide_eq_true ?_, rfl⟩
  have hlen : (bufferBytes f).length = f.nbytes := Memory.toBytes_length _ _
  have hmax : s.config.maxBytes ≤ 4294967295 := by
    simp only [Config.wf, Bool.and_eq_true, decide_eq_true_eq] at hcfg
    exact hcfg.2
  rw [Instr.payload, hlen]
  omega

end Sys2Proof.Machine
end

section
/-! Proofs of the statements about failures: the status that answers a command or a packet (R231 to
R237), a failure that writes nothing (R238), and the idle CORE (R242). The priority is proved one
condition of R237 at a time. -/

namespace Sys2Proof.Machine

/-! ### The causes of R231 are the tests of the commands (R192)

NEWSZ has the causes of SIZE, by definition. -/

/-- The tolerance test on the exact value is the one on the pattern (R192). -/
@[simp] theorem ruleTolerance_eq (t : F64) : ruleTolerance t = toleranceOk t := by
  rw [Bool.eq_iff_iff, toleranceTestIsExact t]
  simp [ruleTolerance, and_assoc]

section
variable {n bitCount hashCount itemCount : I64} {tol : F64} {seed : U32} {bytes : Packet}

theorem ruleInvalid_size_iff :
    ruleInvalid (.size n tol) = true ↔ toleranceOk tol = false ∨ n.toInt ≤ 0 := by
  simp [ruleInvalid]

theorem ruleInvalid_size_eq_false_iff :
    ruleInvalid (.size n tol) = false ↔ toleranceOk tol = true ∧ 0 < n.toInt := by
  simp [ruleInvalid]

theorem ruleInvalid_newex : ruleInvalid (.newex bitCount hashCount itemCount tol seed) =
    !explicitCountsOk bitCount hashCount itemCount tol := by
  simp [ruleInvalid, explicitCountsOk, ← decide_not]

theorem ruleInvalid_load : ruleInvalid (.load bitCount hashCount itemCount tol seed bytes) =
    (decide (bytes = []) || !explicitCountsOk bitCount hashCount itemCount tol) := by
  rw [← ruleInvalid_newex (seed := seed)]
  simp only [ruleInvalid, Bool.or_assoc]

theorem ruleInvalid_load_eq_false_iff :
    ruleInvalid (.load bitCount hashCount itemCount tol seed bytes) = false ↔
      bytes ≠ [] ∧ explicitCountsOk bitCount hashCount itemCount tol = true := by
  simp [ruleInvalid_load]

end

/-! ### One condition of R237 at a time -/

section
variable {i : Instr} {s : State}

/-- R231: a cause of InvalidParameter decides, whatever else holds. -/
theorem exec_invalidParameter (h : ruleInvalid i = true) : exec i s = raise .invalidParameter s := by
  cases i
  case indices hashCount bitCount seed item =>
    exact exec_indices_invalid (by simpa [ruleInvalid] using h) seed item s
  case size n tol => exact exec_size_invalid (ruleInvalid_size_iff.1 h)
  case newsz n tol seed => exact exec_newsz_invalid (ruleInvalid_size_iff.1 h) seed
  case newex bitCount hashCount itemCount tol seed =>
    exact exec_newex_invalid (by simpa [ruleInvalid_newex] using h) seed
  case load bitCount hashCount itemCount tol seed bytes =>
    exact exec_load_invalid (by simpa [ruleInvalid_load] using h) seed
  all_goals cases h

/-- R235, once the parameters are valid. -/
theorem exec_unrepresentable (hinv : ruleInvalid i = false)
    (h : ruleUnrepresentable s.config i = true) : exec i s = raise .unrepresentable s := by
  cases i
  case size n tol =>
    obtain ⟨htol, hn⟩ := ruleInvalid_size_eq_false_iff.1 hinv
    exact exec_size_unrepresentable htol hn (of_decide_eq_true h)
  case newsz n tol seed =>
    obtain ⟨htol, hn⟩ := ruleInvalid_size_eq_false_iff.1 hinv
    exact exec_newsz_unrepresentable htol hn (of_decide_eq_true h) seed
  all_goals cases h

/-- R234, once the parameters are valid and the size is representable. -/
theorem exec_capacityExceeded (hinv : ruleInvalid i = false)
    (hrep : ruleUnrepresentable s.config i = false) (h : ruleOverCapacity s.config i = true) :
    exec i s = raise .capacityExceeded s := by
  cases i
  case newsz n tol seed =>
    obtain ⟨htol, hn⟩ := ruleInvalid_size_eq_false_iff.1 hinv
    exact exec_newsz_capacityExceeded htol hn (not_lt.1 (of_decide_eq_false hrep))
      (of_decide_eq_true h) seed
  case newex bitCount hashCount itemCount tol seed =>
    exact exec_newex_capacityExceeded (by simpa [ruleInvalid_newex] using hinv)
      (of_decide_eq_true h) seed
  case load bitCount hashCount itemCount tol seed bytes =>
    obtain ⟨hne, hok⟩ := ruleInvalid_load_eq_false_iff.1 hinv
    exact exec_load_capacityExceeded hne hok (of_decide_eq_true h) seed
  all_goals cases h

/-- A command that needs a filter answers OK when one is held. -/
theorem exec_needsFilter_respond {f : FilterContext} (hn : i.needsFilter = true)
    (hf : s.context = some f) :
    ∃ results t, exec i s = respond results t ∧ t.responses = s.responses := by
  cases i
  case setbit index => exact ⟨_, _, exec_setbit hf index, rfl⟩
  case getbit index => exact ⟨_, _, exec_getbit hf index, rfl⟩
  case rdbits => exact ⟨_, _, exec_rdbits hf, rfl⟩
  case add item => exact ⟨_, _, exec_add hf item, rfl⟩
  case contains item => exact ⟨_, _, exec_contains hf item, rfl⟩
  case rdpar => exact ⟨_, _, exec_rdpar hf, rfl⟩
  all_goals cases hn

/-- A command that needs no filter answers OK when no condition of R237 holds. -/
theorem exec_noFilterNeeded_respond (hn : i.needsFilter = false) (hinv : ruleInvalid i = false)
    (hrep : ruleUnrepresentable s.config i = false) (hcap : ruleOverCapacity s.config i = false) :
    ∃ results t, exec i s = respond results t ∧ t.responses = s.responses := by
  cases i
  case fnv1a item => exact ⟨_, s, rfl, rfl⟩
  case murmur3 seed item => exact ⟨_, s, rfl, rfl⟩
  case indices hashCount bitCount seed item =>
    obtain ⟨hb, hk⟩ : 0 < bitCount.toInt ∧ 0 ≤ hashCount.toInt := by
      simpa [ruleInvalid] using hinv
    exact ⟨_, s, exec_indices hb hk seed item s, rfl⟩
  case size n tol =>
    obtain ⟨htol, hpos⟩ := ruleInvalid_size_eq_false_iff.1 hinv
    exact ⟨_, s, exec_size_ok htol hpos (not_lt.1 (of_decide_eq_false hrep)), rfl⟩
  case newsz n tol seed =>
    obtain ⟨htol, hpos⟩ := ruleInvalid_size_eq_false_iff.1 hinv
    exact ⟨_, _, exec_newsz_respond htol hpos (not_lt.1 (of_decide_eq_false hrep))
      (not_lt.1 (of_decide_eq_false hcap)) seed, rfl⟩
  case newex bitCount hashCount itemCount tol seed =>
    exact ⟨_, _, exec_newex_ok (by simpa [ruleInvalid_newex] using hinv)
      (not_lt.1 (of_decide_eq_false hcap)) seed, rfl⟩
  case load bitCount hashCount itemCount tol seed bytes =>
    obtain ⟨hne, hok⟩ := ruleInvalid_load_eq_false_iff.1 hinv
    exact ⟨_, _, exec_load_ok hne hok (not_lt.1 (of_decide_eq_false hcap)) seed, rfl⟩
  all_goals cases hn

end

/-! ### The status of a command and of a packet (R237) -/

/-- A command raises the status R237 asks for, or that status is OK and the command answers OK. -/
theorem exec_ruleStatus (i : Instr) (s : State) :
    exec i s = raise (ruleStatus i s) s ∨
    ruleStatus i s = .ok ∧
      ∃ results t, exec i s = respond results t ∧ t.responses = s.responses := by
  unfold ruleStatus
  split_ifs with hfilter hinv hrep hcap
  · obtain ⟨hn, hf⟩ : i.needsFilter = true ∧ s.context = none := by
      simpa [State.valid] using hfilter
    exact .inl (exec_noFilter hn hf)
  · exact .inl (exec_invalidParameter hinv)
  · exact .inl (exec_unrepresentable (by simpa using hinv) hrep)
  · exact .inl (exec_capacityExceeded (by simpa using hinv) (by simpa using hrep) hcap)
  · refine .inr ⟨rfl, ?_⟩
    cases hn : i.needsFilter with
    | true =>
      obtain ⟨f, hf⟩ : ∃ f, s.context = some f :=
        Option.ne_none_iff_exists'.1 (by simpa [hn, State.valid] using hfilter)
      exact exec_needsFilter_respond hn hf
    | false =>
      exact exec_noFilterNeeded_respond hn (by simpa using hinv) (by simpa using hrep)
        (by simpa using hcap)

/-- The status word of a command's answer is the one R237 asks for. -/
theorem exec_statusWord (i : Instr) (s : State) : ∃ t r, exec i s = .next t ∧
    t.responses = s.responses ++ [r] ∧ statusWord r = statusCode (ruleStatus i s) := by
  obtain h | ⟨hok, results, t, h, ht⟩ := exec_ruleStatus i s
  · exact ⟨_, _, h, rfl, statusWord_failurePacket _⟩
  · exact ⟨_, okPacket results, h, by rw [emit_responses, ht], by rw [hok, statusWord_okPacket]⟩

/-- Settles O12: `exec_statusWord` for a packet that decodes, O7 for one that is no command. -/
theorem statusFollowsThePriority : Obligations.StatusFollowsThePriority := by
  refine ⟨exec_statusWord, fun s p rest hreset hcmd => ?_⟩
  by_cases hlegal : LegalPacket p
  · obtain ⟨i, hi⟩ := (legalPacketsAreThoseOfTheTable p).2 hlegal
    obtain ⟨t, r, ht, hr, hst⟩ := exec_statusWord i { s with commands := rest }
    refine ⟨t, r, (stepRunsDecodedCommand s p rest i hreset hcmd hi).trans ht, hr,
      fun h => absurd hlegal h, fun j hj => ?_⟩
    cases hi.symm.trans hj
    exact hst
  · refine ⟨_, _, illegalPacketsAnswerIllegalCommand s p rest hreset hcmd hlegal, rfl,
      fun _ => by decide, fun i hi => ?_⟩
    exact absurd ((legalPacketsAreThoseOfTheTable p).1 ⟨i, hi⟩) hlegal

/-! ### A failure writes nothing (R238), and neither does an idle step (R242) -/

/-- A command whose answer is not OK raised it: the other two cases of `exec_cases` answer OK. -/
theorem exec_failure {i : Instr} {s t : State} {r : Packet} (h : exec i s = .next t)
    (ht : t.responses = s.responses ++ [r]) (hr : statusWord r ≠ 0) :
    t = { s with responses := s.responses ++ [r] } ∧ r.length = 4 := by
  obtain ⟨st, -, he⟩ | ⟨results, he⟩ | ⟨results, f, he⟩ := exec_cases i s
  · cases h.symm.trans he
    cases List.append_cancel_left ht
    exact ⟨rfl, failurePacket_length st⟩
  · cases h.symm.trans he
    cases List.append_cancel_left ht
    exact absurd (statusWord_okPacket results) hr
  · cases h.symm.trans he
    cases List.append_cancel_left ht
    exact absurd (statusWord_okPacket results) hr

/-- Settles O11: `exec_failure` for a packet that decodes, O7 for one that is no command. -/
theorem failureChangesNothing : Obligations.FailureChangesNothing := by
  refine ⟨fun _ _ _ _ => exec_failure, fun s t p r rest hreset hcmd hstep ht hr => ?_⟩
  by_cases hlegal : LegalPacket p
  · obtain ⟨i, hi⟩ := (legalPacketsAreThoseOfTheTable p).2 hlegal
    have hexec := stepRunsDecodedCommand s p rest i hreset hcmd hi
    exact exec_failure (s := { s with commands := rest }) (hexec.symm.trans hstep) ht hr
  · cases hstep.symm.trans (illegalPacketsAnswerIllegalCommand s p rest hreset hcmd hlegal)
    cases List.append_cancel_left ht
    exact ⟨rfl, rfl⟩

/-- Settles O8, by `step_cases`: its other three cases have reset asserted or a packet. -/
theorem idleHoldsTheState : Obligations.IdleHoldsTheState := by
  intro s hreset hcmd
  obtain ⟨hr, -⟩ | ⟨-, -, hstep⟩ | ⟨p, rest, e, -, hp, -⟩ | ⟨p, rest, i, -, hp, -⟩ := step_cases s
  · simp [hreset] at hr
  · exact hstep
  · simp [hcmd] at hp
  · simp [hcmd] at hp

/-- Settles O13, by `exec_noFilter`. -/
theorem noFilterIsAnswered : Obligations.NoFilterIsAnswered :=
  fun _ _ hn hf => exec_noFilter hn hf

end Sys2Proof.Machine
end

section
/-! Proofs of the statements about termination and short buffers: every packet has one answer, in
the step that takes it (R267), and an item with an index outside the buffer is lost (R264). -/

namespace Sys2Proof.Machine

/-! ### Every packet is answered once (R267) -/

/-- Settles O10: `exec_answers` for a packet that decodes, O7 for one that is no command. -/
theorem everyCommandAnswersOnce : Obligations.EveryCommandAnswersOnce := by
  intro s p rest hreset hcmd
  by_cases hlegal : LegalPacket p
  · obtain ⟨i, hi⟩ := (legalPacketsAreThoseOfTheTable p).2 hlegal
    have hstep := stepRunsDecodedCommand s p rest i hreset hcmd hi
    obtain ⟨r, t, hr, he, rfl | ⟨f, rfl⟩⟩ := exec_answers i { s with commands := rest } <;>
      exact ⟨_, r, hstep.trans he, rfl, hr, rfl, hreset, rfl⟩
  · exact ⟨_, _, illegalPacketsAnswerIllegalCommand s p rest hreset hcmd hlegal, rfl, by decide, rfl,
      hreset, rfl⟩

/-! ### An index outside a short buffer (R264) -/

/-- An item with an index outside the buffer is never found, whatever the bytes (R57, R190). -/
theorem containsItem_eq_false_of_outside {f : FilterContext} {item : Packet} {i : Nat}
    (hi : i ∈ filterIndices f item) (hout : f.nbytes ≤ i / 8) : containsItem f item = false :=
  Bool.eq_false_iff.2 fun h => (containsItem_iff.1 h i hi).1.not_ge hout

/-- Settles O53: ADD changes neither the indices of the item nor NBYTES. -/
theorem shortBufferLosesItems : Obligations.ShortBufferLosesItems := by
  intro s f item hf ⟨i, hi, hout⟩
  refine ⟨_, exec_add hf item, rfl, exec_contains_notMember rfl ?_⟩
  have hi' : i ∈ filterIndices (addItem f item) item := by rwa [addItem, filterIndices_setBits]
  exact containsItem_eq_false_of_outside hi' (by rwa [addItem, setBits_nbytes])

end Sys2Proof.Machine
end
